-- ==== Sys2Proof/Word.lean ====
section
/-! DEFINITION. The words of the machine: the byte (registers, cells, operands, addresses in range) and
the nine-bit program counter (00_scope.md R4, R5). -/
namespace Sys2Proof

/-- An 8-bit unsigned value: a register, a memory cell, an operand byte, an address 0..255 (R4, R5). -/
abbrev Byte := BitVec 8

/-- The program counter's width, nine bits, so that 256 is held without wrapping to 0
(10_state.md R15; UNVERIFIED: the spec's decision D2, log 2). -/
abbrev PcWord := BitVec 9

/-- A valid register index, 0..7 (10_state.md R10, R12). -/
abbrev RegIdx := Fin 8

end Sys2Proof
end

