-- ==== Sys2Proof/Syntax.lean ====
section
/-! DEFINITION. The nine instructions, one constructor per row of spec/opcode_table.json (30_encoding.md R50, R52).
Operands are the operand BYTES as fetched: a register operand is a whole byte (R54), and 8..255 is an ill-formed
instruction on which the meaning raises InvalidRegister (WellFormed.lean; log 22). -/
namespace Sys2Proof

/-- The instruction set, in the order of the spec's table. -/
inductive Instr where
  /-- HLT: halt (41_hlt_ldi_prn.md R80). -/
  | hlt
  /-- LDI r v: load immediate (41_hlt_ldi_prn.md R81). -/
  | ldi (r v : Byte)
  /-- PRN r: print register (41_hlt_ldi_prn.md R82). -/
  | prn (r : Byte)
  /-- ADD a b: add registers (42_alu.md R86). -/
  | add (a b : Byte)
  /-- MUL a b: multiply registers (42_alu.md R87). -/
  | mul (a b : Byte)
  /-- PUSH r: push register (43_stack.md R91). -/
  | push (r : Byte)
  /-- POP r: pop into register (43_stack.md R92). -/
  | pop (r : Byte)
  /-- CALL r: call the subroutine at the address in a register (44_call_ret.md R95). -/
  | call (r : Byte)
  /-- RET: return from subroutine (44_call_ret.md R96). -/
  | ret
deriving DecidableEq, Repr

end Sys2Proof
end

