-- ==== Sys2Proof/Config.lean ====
section
/-! DEFINITION. What the spec carries as parameters (00_scope.md R4): the nine operations, an assignment of opcode
bytes to them, and the reset constants. The DEFAULT opcode bytes stand in Decode.lean (defaultOpcodes).
There is no free value: no instruction of this machine completes with a value the spec leaves open. -/
namespace Sys2Proof

/-- The nine operations, without operands, in the order of the spec's table (30_encoding.md R52). -/
inductive Op where
  | hlt | ldi | prn | add | mul | push | pop | call | ret
deriving DecidableEq, Repr

/-- All nine, in table order. -/
def Op.all : List Op := [.hlt, .ldi, .prn, .add, .mul, .push, .pop, .call, .ret]

/-- The operation an instruction performs. -/
def Instr.op : Instr → Op
  | .hlt => .hlt
  | .ldi _ _ => .ldi
  | .prn _ => .prn
  | .add _ _ => .add
  | .mul _ _ => .mul
  | .push _ => .push
  | .pop _ => .pop
  | .call _ => .call
  | .ret => .ret

/-- The parameters OPC_HLT .. OPC_RET: one opcode byte for each operation (30_encoding.md R52, D1). -/
structure Opcodes where
  hlt : Byte
  ldi : Byte
  prn : Byte
  add : Byte
  mul : Byte
  push : Byte
  pop : Byte
  call : Byte
  ret : Byte
deriving DecidableEq, Repr

/-- The opcode byte an assignment gives an operation. -/
def Opcodes.byteOf (o : Opcodes) : Op → Byte
  | .hlt => o.hlt
  | .ldi => o.ldi
  | .prn => o.prn
  | .add => o.add
  | .mul => o.mul
  | .push => o.push
  | .pop => o.pop
  | .call => o.call
  | .ret => o.ret

/-- The one constraint on an assignment: the nine bytes are pairwise distinct (30_encoding.md R52). -/
abbrev Opcodes.Distinct (o : Opcodes) : Prop := (Op.all.map o.byteOf).Nodup

/-- SP_INDEX: register 7 is the stack pointer (10_state.md R11). -/
def Config.spIndex : RegIdx := 7

/-- SP_RESET (10_state.md R21). -/
def Config.spReset : Byte := 255

/-- REG_RESET, the reset value of registers 0..6 (10_state.md R21; DESIGN CHOICE: D4, log 4, unsafe). -/
def Config.regReset : Byte := 0

/-- PC_RESET, the entry point (10_state.md R21). -/
def Config.pcReset : PcWord := 0

/-- MEM_SIZE, the number of cells (20_memory.md R30). -/
def Config.memSize : Nat := 256

end Sys2Proof
end

