-- ==== Sys2Proof/WellFormed.lean ====
section
/-! DEFINITION. When an instruction's operands are legal: every register operand names a register 0..7
(10_state.md R12, 30_encoding.md R54). The immediate of LDI has no illegal value (R55). -/
namespace Sys2Proof

/-- A register operand byte names a register (R54). -/
def regByteOk (b : Byte) : Bool := decide (b.toNat < 8)

/-- The register operand bytes of an instruction, in operand order (R54, R73). -/
def Instr.regOperands : Instr → List Byte
  | .hlt => []
  | .ldi r _ => [r]
  | .prn r => [r]
  | .add a b => [a, b]
  | .mul a b => [a, b]
  | .push r => [r]
  | .pop r => [r]
  | .call r => [r]
  | .ret => []

/-- Every register operand is legal. -/
def Instr.wf (i : Instr) : Bool := i.regOperands.all regByteOk

end Sys2Proof
end

