-- ==== Sys2Proof/Decode.lean ====
section
/-! DEFINITION. The decoder, total on any bytes and rejecting by name, and the encoder after it, both written from the
formats of 30_encoding.md R50 and the operand counts of R51, for ANY assignment of opcode bytes (R52, D1); and the
default assignment. The decoder is stateless (R57) and asks for no byte the instruction does not have (R72). -/
namespace Sys2Proof

/-- The default opcode bytes (30_encoding.md R52, R60). PRESUMED: the source gives no opcode value; the spec takes
these from general knowledge of the LS-8 teaching machine (D1, log 1). Unsafe: with other values every program decodes
differently. -/
def defaultOpcodes : Opcodes where
  hlt := 0x01
  ldi := 0x82
  prn := 0x47
  add := 0xA0
  mul := 0xA2
  push := 0x45
  pop := 0x46
  call := 0x50
  ret := 0x11

/-- The number of operand bytes of each operation (30_encoding.md R51: a fixed table, no bit field). -/
def operandCount : Op → Nat
  | .hlt => 0
  | .ldi => 2
  | .prn => 1
  | .add => 2
  | .mul => 2
  | .push => 1
  | .pop => 1
  | .call => 1
  | .ret => 0

/-- Which operation an opcode byte selects: all eight bits are compared with the nine values (R51, R71). -/
def decodeOpcode (o : Opcodes) (b : Byte) : Option Op :=
  Op.all.find? fun p => o.byteOf p == b

/-- The instruction of an operation and its operand bytes; operands it does not have are ignored (R50). -/
def assemble (p : Op) (op1 op2 : Byte) : Instr :=
  match p with
  | .hlt => .hlt
  | .ldi => .ldi op1 op2
  | .prn => .prn op1
  | .add => .add op1 op2
  | .mul => .mul op1 op2
  | .push => .push op1
  | .pop => .pop op1
  | .call => .call op1
  | .ret => .ret

/-- Why bytes are no instruction. -/
inductive DecodeError where
  /-- Byte number `k` of the instruction (0 the opcode) is needed and not there. -/
  | missingByte (k : Nat)
  /-- The opcode byte is none of the nine (R56). -/
  | illegalOpcode (b : Byte)
deriving DecidableEq, Repr

/-- Stages 1 to 3 of the step (40_execution_cycle.md R70 to R72): `get k` is byte number `k` of the instruction. The
opcode comes first, then exactly as many operand bytes as the table gives, in order. -/
def decodeFrom (o : Opcodes) (get : Nat → Option Byte) : Except DecodeError Instr :=
  match get 0 with
  | none => .error (.missingByte 0)
  | some b =>
    match decodeOpcode o b with
    | none => .error (.illegalOpcode b)
    | some p =>
      match operandCount p with
      | 0 => .ok (assemble p 0 0)
      | 1 =>
        match get 1 with
        | none => .error (.missingByte 1)
        | some x => .ok (assemble p x 0)
      | _ =>
        match get 1 with
        | none => .error (.missingByte 1)
        | some x =>
          match get 2 with
          | none => .error (.missingByte 2)
          | some y => .ok (assemble p x y)

/-- Decode the instruction that a list of bytes begins with; bytes after it are not looked at. -/
def decodeWith (o : Opcodes) (bs : List Byte) : Except DecodeError Instr :=
  decodeFrom o fun k => bs[k]?

/-- The decoder with the default opcode bytes. -/
def decode (bs : List Byte) : Except DecodeError Instr := decodeWith defaultOpcodes bs

/-- The bytes of an instruction: opcode, then operands at increasing addresses (R33, R50). -/
def encodeWith (o : Opcodes) : Instr → List Byte
  | .hlt => [o.hlt]
  | .ldi r v => [o.ldi, r, v]
  | .prn r => [o.prn, r]
  | .add a b => [o.add, a, b]
  | .mul a b => [o.mul, a, b]
  | .push r => [o.push, r]
  | .pop r => [o.pop, r]
  | .call r => [o.call, r]
  | .ret => [o.ret]

/-- The encoder with the default opcode bytes. -/
def encode (i : Instr) : List Byte := encodeWith defaultOpcodes i

/-- The three bytes (the longest instruction) of a table word: the first byte is bits 7..0, the next bits 15..8, the
third bits 23..16; bits from `nbits` up are 0 (log 26). -/
def tableBytes (nbits w : Nat) : List Byte :=
  [BitVec.ofNat 8 (w % 2 ^ nbits), BitVec.ofNat 8 (w % 2 ^ nbits / 256), BitVec.ofNat 8 (w % 2 ^ nbits / 65536)]

/-- What the decoder reads from a word of spec/opcode_table.json. -/
def decodeTableWord (nbits w : Nat) : Option Instr :=
  match decode (tableBytes nbits w) with
  | .ok i => some i
  | .error _ => none

end Sys2Proof
end

