-- ==== Sys2Proof/Machine/State.lean ====
section
/-! DEFINITION. The machine's state as plain data, the whole tuple of 10_state.md: registers, pc, memory, run state,
fault record and output channel; and the state after reset (R21, 70_reset_and_hazards.md R120). -/
namespace Sys2Proof.Machine

/-- The run state (10_state.md R17). -/
inductive RunState where
  /-- After reset, before start; the host may write memory. -/
  | idle
  /-- The core fetches and executes; the source's running flag. -/
  | running
  /-- HLT was executed; terminal. -/
  | halted
  /-- A fatal run-time error was raised; terminal. -/
  | faulted
deriving DecidableEq, Repr

/-- The cause recorded by a fault (10_state.md R18, 60_exceptions.md R100). -/
inductive FaultCause where
  /-- No fault since reset. -/
  | noFault
  /-- The byte fetched at pc is none of the nine opcodes. -/
  | illegalOpcode
  /-- An address outside 0..255 was about to be used. -/
  | outOfBounds
  /-- A register operand byte is 8..255. -/
  | invalidRegister
  /-- The ALU was given an operation other than ADD and MUL; unreachable (42_alu.md R89). -/
  | unsupportedAluOp
deriving DecidableEq, Repr

/-- The memory array: (address, byte) pairs by strictly rising address, none of them 0 (log 21). -/
abbrev Memory := List Host.Cell

/-- The architectural state, field by field the tuple of 10_state.md. -/
structure State where
  /-- x[0..7] (R10); x[7] is the stack pointer (R11). -/
  regs : Vector Byte 8
  /-- The program counter, the address of the current instruction's opcode byte (R15). -/
  pc : PcWord
  /-- M[0..255] (R16): the cells that are not 0, by rising address; an unlisted cell reads 0 (log 21). -/
  mem : Memory
  /-- The run state (R17). -/
  run : RunState
  /-- The fault record: the cause (R18). -/
  fcause : FaultCause
  /-- The fault record: pc when the fault was raised (R18). -/
  fpc : PcWord
  /-- The fault record: the cause's own datum, a signed integer (R18). -/
  finfo : Int
  /-- The values PRN has emitted, oldest first (R20). -/
  out : List Byte
deriving DecidableEq, Repr

/-- Host-level faults: THERE ARE NONE. The spec's four fatal errors are next states of this machine, with the run
state and the fault record written (60_exceptions.md R101; log 20), so no step and no meaning answers Outcome.fault.
Safe: a step that answered one would be a gap. -/
inductive Fault where
deriving DecidableEq, Repr

/-- Host-level refusals. -/
inductive Refusal where
  /-- Raised by a dispatch arm without a meaning; no arm of this model is one. Safe: the run stops. -/
  | notModelled (mnemonic : String)
deriving DecidableEq, Repr

/-- The machine right after reset (10_state.md R21, 70_reset_and_hazards.md R120). Registers 0..6 are 0 by
DESIGN CHOICE (D4, log 4, unsafe); memory lists nothing, every cell reads 0. -/
def State.reset : State where
  regs := #v[Config.regReset, Config.regReset, Config.regReset, Config.regReset, Config.regReset, Config.regReset,
    Config.regReset, Config.spReset]
  pc := Config.pcReset
  mem := []
  run := .idle
  fcause := .noFault
  fpc := 0
  finfo := 0
  out := []

end Sys2Proof.Machine
end

