-- ==== Sys2Proof/Machine/Ops.lean ====
section
/-! DEFINITION. The primitives of 00_scope.md R6 over the state: memory cells, MemRead and MemWrite, the register file,
the stack-pointer steps, Emit, the program counter, and fault entry as ONE shared operation. An instruction's effect
is an `Except Trap State`: its writes go to the state it hands on, so a `raise` discards them all (40_execution_cycle.md
R74). There is no return from a fault (60_exceptions.md R106); the only way out of a terminal state is reset
(HostPort.lean). -/
namespace Sys2Proof.Machine

/-! ### Memory cells -/

/-- The byte in cell `a`; a cell not listed is 0 (10_state.md R16, R21). -/
def Memory.read : Memory → Nat → Byte
  | [], _ => 0
  | (k, v) :: rest, a => if a = k then v else Memory.read rest a

/-- Store `v` in cell `a`, keeping the canonical form: writing 0 removes the entry. -/
def Memory.write : Memory → Nat → Byte → Memory
  | [], a, v => if v = 0 then [] else [(a, v)]
  | (k, w) :: rest, a, v =>
    if a < k then (if v = 0 then (k, w) :: rest else (a, v) :: (k, w) :: rest)
    else if a = k then (if v = 0 then rest else (a, v) :: rest)
    else (k, w) :: Memory.write rest a v

/-- The canonical form: strictly rising addresses, all below 256, no entry holding what an unlisted cell reads as. -/
abbrev Memory.wf (m : Memory) : Prop :=
  m.Pairwise (fun c d => c.1 < d.1) ∧ ∀ c ∈ m, c.1 < Config.memSize ∧ c.2 ≠ 0

/-! ### Faults -/

/-- A fault with its own datum (60_exceptions.md R100). -/
inductive Trap where
  /-- The opcode byte is none of the nine (R103). -/
  | illegalOpcode (b : Byte)
  /-- An address outside 0..255 was about to be used (R102). -/
  | outOfBounds (a : Int)
  /-- A register operand byte is above 7 (R104). -/
  | invalidRegister (b : Byte)
  /-- The ALU was given an operation it does not have (42_alu.md R89). -/
  | unsupportedAluOp
deriving DecidableEq, Repr

/-- The cause recorded (60_exceptions.md R100). -/
def Trap.cause : Trap → FaultCause
  | .illegalOpcode _ => .illegalOpcode
  | .outOfBounds _ => .outOfBounds
  | .invalidRegister _ => .invalidRegister
  | .unsupportedAluOp => .unsupportedAluOp

/-- The datum recorded in finfo (R100: the byte, the address, the operand byte, 0). -/
def Trap.info : Trap → Int
  | .illegalOpcode b => b.toNat
  | .outOfBounds a => a
  | .invalidRegister b => b.toNat
  | .unsupportedAluOp => 0

/-- Fault entry (60_exceptions.md R101): the record is written and the core stops; nothing else changes. -/
def raise (s : State) (t : Trap) : State :=
  { s with run := .faulted, fcause := t.cause, fpc := s.pc, finfo := t.info }

/-- The end of an instruction: its next state, or fault entry from the state BEFORE it (R74, log 6). -/
def commit (s : State) (effect : Except Trap State) : Host.Outcome State Fault Refusal :=
  match effect with
  | .ok t => .next t
  | .error e => .next (raise s e)

/-! ### Memory access -/

/-- `M <- m`. -/
def State.setMem (s : State) (m : Memory) : State := { s with mem := m }

/-- The bounds check (20_memory.md R31): an address outside 0..255 raises OutOfBounds with that address, never wrapped. -/
def checkAddr (a : Int) : Except Trap Byte :=
  if 0 ≤ a ∧ a ≤ 255 then .ok (BitVec.ofNat 8 a.toNat) else .error (.outOfBounds a)

/-- MemRead(a) (00_scope.md R6, 20_memory.md R31). -/
def memRead (s : State) (a : Int) : Except Trap Byte := do
  let k ← checkAddr a
  .ok (s.mem.read k.toNat)

/-- MemWrite(a, v) (00_scope.md R6, 20_memory.md R31). -/
def memWrite (s : State) (a : Int) (v : Byte) : Except Trap State := do
  let k ← checkAddr a
  .ok (s.setMem (s.mem.write k.toNat v))

/-! ### Registers, program counter, run state, output -/

/-- `x[i]` (10_state.md R10). -/
def State.reg (s : State) (i : RegIdx) : Byte := s.regs[i]

/-- `x[i] <- v` (10_state.md R10). -/
def State.setReg (s : State) (i : RegIdx) (v : Byte) : State := { s with regs := s.regs.set i v }

/-- `sp`, register 7 (10_state.md R11). -/
def State.sp (s : State) : Byte := s.reg Config.spIndex

/-- `sp <- v`. -/
def State.setSp (s : State) (v : Byte) : State := s.setReg Config.spIndex v

/-- `pc <- t` for an 8-bit target (44_call_ret.md R95, R96). -/
def State.jump (s : State) (t : Byte) : State := { s with pc := t.setWidth 9 }

/-- `pc <- pc + n` (10_state.md R15). -/
def State.advance (s : State) (n : Nat) : State := { s with pc := s.pc + BitVec.ofNat 9 n }

/-- `run <- r`. -/
def State.setRun (s : State) (r : RunState) : State := { s with run := r }

/-- `Emit(v)` (10_state.md R20): one value appended to the output channel. -/
def State.emit (s : State) (v : Byte) : State := { s with out := s.out ++ [v] }

/-! ### Stack-pointer steps, the one helper of 43_stack.md R90 -/

/-- The stack pointer after a push: `sp - 1`, or OutOfBounds(-1) when `sp = 0`; never wrapped (R90, D8, log 8). -/
def spBelow (sp : Byte) : Except Trap Byte := checkAddr ((sp.toNat : Int) - 1)

/-- The stack pointer after a pop: `sp + 1`, or OutOfBounds(256) when `sp = 255`; never wrapped (R90, D8, log 8). -/
def spAbove (sp : Byte) : Except Trap Byte := checkAddr ((sp.toNat : Int) + 1)

end Sys2Proof.Machine
end

