-- ==== Sys2Proof/Machine/Operands.lean ====
section
/-! DEFINITION. The operand forms: a register named by a whole byte, and an immediate byte (30_encoding.md R54, R55). -/
namespace Sys2Proof.Machine

/-- A register operand: the byte 0..7 names that register, 8..255 raises InvalidRegister with the byte
(30_encoding.md R54, 10_state.md R12; stage 4 of 40_execution_cycle.md R70; D18, log 17). -/
def regOperand (b : Byte) : Except Trap RegIdx :=
  if h : b.toNat < 8 then .ok ⟨b.toNat, h⟩ else .error (.invalidRegister b)

/-- The immediate operand, used as it stands (30_encoding.md R55). -/
def immOperand (b : Byte) : Byte := b

end Sys2Proof.Machine
end

