-- ==== Sys2Proof/Machine/Flags.lean ====
section
/-! DEFINITION. What the ALU puts out. This machine has NO flags register, no condition code and no carry, overflow,
zero or sign output (10_state.md R19, 42_alu.md R85): the ALU's one output is its 8-bit result, written here. -/
namespace Sys2Proof.Machine

/-- The ALU's result (42_alu.md R85, R88): the exact sum or product of the two unsigned bytes, reduced mod 256 (D3,
log 3). An operation that is not ADD or MUL raises UnsupportedAluOp (R89); the decoder never selects one (log 27). -/
def aluResult (p : Op) (x y : Byte) : Except Trap Byte :=
  match p with
  | .add => .ok (BitVec.ofNat 8 ((x.toNat + y.toNat) % 256))
  | .mul => .ok (BitVec.ofNat 8 ((x.toNat * y.toNat) % 256))
  | .hlt | .ldi | .prn | .push | .pop | .call | .ret => .error .unsupportedAluOp

/-- The ALU's contract `apply(op, dest, src)` (42_alu.md R85): the result goes back to the destination register. -/
def aluApply (p : Op) (dest src : RegIdx) (s : State) : Except Trap State := do
  let v ← aluResult p (s.reg dest) (s.reg src)
  .ok (s.setReg dest v)

end Sys2Proof.Machine
end

