-- ==== Sys2Proof/Machine/Alu.lean ====
section
/-! DEFINITION. ADD, MUL (42_alu.md): one shared shape over the ALU, one meaning for each. -/
namespace Sys2Proof.Machine

/-- An ALU instruction: both register operands checked in order (R73), the ALU applied, pc + 3. -/
def execAluOp (p : Op) (a b : Byte) (s : State) : Host.Outcome State Fault Refusal :=
  commit s do
    let i ← regOperand a
    let j ← regOperand b
    let t ← aluApply p i j s
    .ok (t.advance 3)

/-- ADD a b (R86). -/
def execAdd (a b : Byte) (s : State) : Host.Outcome State Fault Refusal := execAluOp .add a b s

/-- MUL a b (R87). -/
def execMul (a b : Byte) (s : State) : Host.Outcome State Fault Refusal := execAluOp .mul a b s

end Sys2Proof.Machine
end

