-- ==== Sys2Proof/Machine/Basic.lean ====
section
/-! DEFINITION. HLT, LDI, PRN (41_hlt_ldi_prn.md). -/
namespace Sys2Proof.Machine

/-- HLT (R80): the run ends; pc stays at the HLT (D10, log 10). -/
def execHlt (s : State) : Host.Outcome State Fault Refusal :=
  commit s (.ok (s.setRun .halted))

/-- LDI r v (R81). -/
def execLdi (r v : Byte) (s : State) : Host.Outcome State Fault Refusal :=
  commit s do
    let i ← regOperand r
    .ok ((s.setReg i (immOperand v)).advance 3)

/-- PRN r (R82): the REGISTER's value goes to the output channel. -/
def execPrn (r : Byte) (s : State) : Host.Outcome State Fault Refusal :=
  commit s do
    let i ← regOperand r
    .ok ((s.emit (s.reg i)).advance 2)

end Sys2Proof.Machine
end

