-- ==== Sys2Proof/Machine/Stack.lean ====
section
/-! DEFINITION. PUSH, POP (43_stack.md). -/
namespace Sys2Proof.Machine

/-- PUSH r (R91). The operand register is read after the stack pointer was stepped, so PUSH R7 stores the NEW stack
pointer (D21, log 18). -/
def execPush (r : Byte) (s : State) : Host.Outcome State Fault Refusal :=
  commit s do
    let i ← regOperand r
    let nsp ← spBelow s.sp
    let s1 := s.setSp nsp
    let s2 ← memWrite s1 nsp.toNat (s1.reg i)
    .ok (s2.advance 2)

/-- POP r (R92). For r = 7 the value loaded is stepped, not the old stack pointer (D21, log 18). -/
def execPop (r : Byte) (s : State) : Host.Outcome State Fault Refusal :=
  commit s do
    let i ← regOperand r
    let v ← memRead s s.sp.toNat
    let nsp ← if i = Config.spIndex then spAbove v else spAbove s.sp
    let s1 := if i = Config.spIndex then s else s.setReg i v
    .ok ((s1.setSp nsp).advance 2)

end Sys2Proof.Machine
end

