-- ==== Sys2Proof/Machine/Transfer.lean ====
section
/-! DEFINITION. CALL, RET (44_call_ret.md), the only instructions that assign the program counter. -/
namespace Sys2Proof.Machine

/-- CALL r (R95). Checks in the order of the pseudocode: the stack pointer, then the return address (D9, log 9). The
target register is read after the stack pointer was stepped, so CALL R7 jumps to the NEW stack pointer (D21, log 18). -/
def execCall (r : Byte) (s : State) : Host.Outcome State Fault Refusal :=
  commit s do
    let i ← regOperand r
    let nsp ← spBelow s.sp
    let ra ← checkAddr ((s.pc.toNat : Int) + 2)
    let s1 := s.setSp nsp
    let s2 ← memWrite s1 nsp.toNat ra
    .ok (s2.jump (s2.reg i))

/-- RET (R96). -/
def execRet (s : State) : Host.Outcome State Fault Refusal :=
  commit s do
    let t ← memRead s s.sp.toNat
    let nsp ← spAbove s.sp
    .ok ((s.setSp nsp).jump t)

end Sys2Proof.Machine
end

