-- ==== Sys2Proof/Machine/Cycle.lean ====
section
/-! DEFINITION. The fetch-decode-execute cycle (40_execution_cycle.md R70), for any assignment of opcode bytes, and
the placing of an instruction where the next fetch reads it. -/
namespace Sys2Proof.Machine

/-- Byte number `k` of the instruction at pc, an ordinary memory read of the cell as it now is (R71, R72,
20_memory.md R43); none when its address is above 255. -/
def fetchByte (s : State) (k : Nat) : Option Byte :=
  (memRead s ((s.pc.toNat : Int) + (k : Int))).toOption

/-- The fault of a failed fetch or decode (R71, R72): the address that was refused, or the illegal byte. -/
def fetchTrap (s : State) : DecodeError → Trap
  | .missingByte k => .outOfBounds ((s.pc.toNat : Int) + (k : Int))
  | .illegalOpcode b => .illegalOpcode b

/-- Stages 1 to 3 of the step: fetch, decode, operand fetch. -/
def fetchInstr (o : Opcodes) (s : State) : Except Trap Instr :=
  match decodeFrom o (fetchByte s) with
  | .ok i => .ok i
  | .error e => .error (fetchTrap s e)

/-- One step (R70). The core steps only while running; in Idle, Halted and Faulted it takes no step and its state
stays as it is (R76, R77; log 19). -/
def cycle (o : Opcodes) (s : State) : Host.Outcome State Fault Refusal :=
  match s.run with
  | .running =>
    match fetchInstr o s with
    | .ok i => exec i s
    | .error t => .next (raise s t)
  | .idle => .next s
  | .halted => .next s
  | .faulted => .next s

/-- Bytes stored from cell `a` upward; bytes past cell 255 are dropped. -/
def placeBytes (m : Memory) (a : Nat) : List Byte → Memory
  | [] => m
  | b :: bs => placeBytes (if a < Config.memSize then m.write a b else m) (a + 1) bs

/-- The state with the bytes of a table word at pc and the core running (log 16): it stands for the host's load and
start. -/
def placeInstr (s : State) (nbits w : Nat) : State :=
  (s.setMem (placeBytes s.mem s.pc.toNat (tableBytes nbits w))).setRun .running

end Sys2Proof.Machine
end

