-- ==== Sys2Proof/Machine/Bus.lean ====
section
/-! DEFINITION. The accesses a step makes on the memory port (10_state.md R22: mem_addr, mem_we, mem_rdata, mem_wdata), in
the order it makes them (20_memory.md R37, R38). Observation only: `step` never calls these. An access whose address is
outside 0..255 is never made (R22, 60_exceptions.md R102). -/
namespace Sys2Proof.Machine

/-- One access: the address, and the byte read or written. -/
inductive BusAccess where
  | read (a v : Byte)
  | write (a v : Byte)
deriving DecidableEq, Repr

/-- mem_addr. -/
def BusAccess.addr : BusAccess → Nat
  | .read a _ => a.toNat
  | .write a _ => a.toNat

/-- mem_we. -/
def BusAccess.isWrite : BusAccess → Bool
  | .read _ _ => false
  | .write _ _ => true

/-- A read of the cell at an address in range. -/
def busRead (s : State) (a : Byte) : BusAccess := .read a (s.mem.read a.toNat)

/-- How many bytes the fetch unit asks for: the opcode, and the operands of a legal one (40_execution_cycle.md R71, R72). -/
def fetchLength (o : Opcodes) (s : State) : Nat :=
  match fetchByte s 0 with
  | none => 0
  | some b =>
    match decodeOpcode o b with
    | none => 1
    | some p => 1 + operandCount p

/-- The fetches, in address order, as far as memory goes. -/
def fetchBus (o : Opcodes) (s : State) : List BusAccess :=
  ((List.range (fetchLength o s)).filter fun k => s.pc.toNat + k < Config.memSize).map fun k =>
    busRead s (BitVec.ofNat 8 (s.pc.toNat + k))

/-- The data access of an instruction, if it makes one before it completes or faults (R37). -/
def dataBus (i : Instr) (s : State) : List BusAccess :=
  match i with
  | .hlt => []
  | .ldi _ _ => []
  | .prn _ => []
  | .add _ _ => []
  | .mul _ _ => []
  | .push r =>
    match regOperand r, spBelow s.sp with
    | .ok k, .ok nsp => [.write nsp ((s.setSp nsp).reg k)]
    | _, _ => []
  | .pop r =>
    match regOperand r with
    | .ok _ => [busRead s s.sp]
    | .error _ => []
  | .call r =>
    match regOperand r, spBelow s.sp, checkAddr ((s.pc.toNat : Int) + 2) with
    | .ok _, .ok nsp, .ok ra => [.write nsp ra]
    | _, _, _ => []
  | .ret => [busRead s s.sp]

/-- All accesses of one step, in order: opcode, operands, then the data access (R38). -/
def stepBus (o : Opcodes) (s : State) : List BusAccess :=
  match s.run with
  | .running =>
    fetchBus o s ++
      match fetchInstr o s with
      | .ok i => dataBus i s
      | .error _ => []
  | .idle => []
  | .halted => []
  | .faulted => []

/-- Memory after the writes of a list of accesses. -/
def busReplay (m : Memory) : List BusAccess → Memory
  | [] => m
  | .read _ _ :: rest => busReplay m rest
  | .write a v :: rest => busReplay (m.write a.toNat v) rest

end Sys2Proof.Machine
end

