-- ==== Sys2Proof/Machine/HostPort.lean ====
section
/-! DEFINITION. What the host does to the core and reads from it (70_reset_and_hazards.md R120 to R123, 10_state.md
R22): reset, the load port, the start event, the placing of a program image, and the observation ports. None of these
is a move of the core: `step` never calls them. -/
namespace Sys2Proof.Machine

/-- The host's actions on the core's state (R123). -/
inductive HostEvent where
  /-- Assert reset, at any time (R120). -/
  | reset
  /-- The load port: write byte `v` to cell `a` (10_state.md R22: ld_addr, ld_data, ld_we). -/
  | load (a v : Byte)
  /-- The start event (40_execution_cycle.md R76). -/
  | start
deriving DecidableEq, Repr

/-- Reset, from any state, memory included (R120; D16, log 15). -/
def hostReset (_ : State) : State := State.reset

/-- A write through the load port, honoured only while Idle (10_state.md R22, R23). -/
def hostLoad (a v : Byte) (s : State) : State :=
  if s.run = .idle then s.setMem (s.mem.write a.toNat v) else s

/-- The start event: from Idle the core runs, nothing else changes; ignored otherwise (40_execution_cycle.md R76). -/
def hostStart (s : State) : State :=
  if s.run = .idle then s.setRun .running else s

/-- What an action of the host does. -/
def hostApply : HostEvent → State → State
  | .reset, s => hostReset s
  | .load a v, s => hostLoad a v s
  | .start, s => hostStart s

/-- The load-time errors the model tells apart (60_exceptions.md R110, 30_encoding.md R58). They are the host's: none
is ever recorded in the core. -/
inductive LoadError where
  /-- A line's first token is no 8-digit binary literal. -/
  | malformedLiteral
  /-- The image holds no byte. -/
  | emptyProgram
  /-- The image has more than 256 bytes and cannot be placed. -/
  | imageTooLong
deriving DecidableEq, Repr

/-- Bytes written through the load port at rising addresses from `a`. -/
def loadFrom (a : Nat) : List Byte → State → State
  | [], s => s
  | b :: bs, s => loadFrom (a + 1) bs (hostLoad (BitVec.ofNat 8 a) b s)

/-- The Loader (R121, R122): image byte k goes to address k; 1 to 256 bytes. -/
def loadImage (image : List Byte) (s : State) : Except LoadError State :=
  if image = [] then .error .emptyProgram
  else if Config.memSize < image.length then .error .imageTooLong
  else .ok (loadFrom 0 image s)

/-- The launch state of R121 and R122: reset, load, start. -/
def boot (image : List Byte) : Except LoadError State :=
  match loadImage image State.reset with
  | .ok s => .ok (hostStart s)
  | .error e => .error e

/-! ### Observation ports (10_state.md R22) -/

/-- The port run_state, coded as in R17. -/
def portRunState (s : State) : BitVec 2 :=
  match s.run with
  | .idle => 0
  | .running => 1
  | .halted => 2
  | .faulted => 3

/-- The source's running flag (R17): true exactly while running. -/
def runningFlag (s : State) : Bool := s.run == .running

/-- The port fault_cause, coded as in 60_exceptions.md R100 (D5, log 5). -/
def portFaultCause (s : State) : BitVec 3 :=
  match s.fcause with
  | .noFault => 0
  | .illegalOpcode => 1
  | .outOfBounds => 2
  | .invalidRegister => 3
  | .unsupportedAluOp => 4

/-- The port fault_pc. -/
def portFaultPc (s : State) : BitVec 9 := s.fpc

/-- The port fault_info, two's complement. -/
def portFaultInfo (s : State) : BitVec 10 := BitVec.ofInt 10 s.finfo

/-- What the host reads of a cell (R123: it may read registers and memory in a terminal state). -/
def portMem (s : State) (a : Byte) : Byte := s.mem.read a.toNat

end Sys2Proof.Machine
end

