-- ==== Sys2Proof/Machine/Image.lean ====
section
/-! DEFINITION. The program image text of 30_encoding.md R58. The scope file leaves the parser out as a mechanism
(00_scope.md R3); its result and its error names are modelled here, with the details R58 leaves to the host as the
model's choices (log 24). -/
namespace Sys2Proof.Machine

/-- White space inside a line. -/
def isBlank (c : Char) : Bool := c == ' ' || c == '\t' || c == '\r'

/-- The lines of a text stream. -/
def splitLines : List Char → List (List Char)
  | [] => [[]]
  | c :: cs =>
    if c == '\n' then [] :: splitLines cs
    else
      match splitLines cs with
      | [] => [[c]]
      | l :: ls => (c :: l) :: ls

/-- The value of base-2 digits, most significant first; none if a character is no digit. -/
def binaryValue : List Char → Nat → Option Nat
  | [], acc => some acc
  | c :: cs, acc =>
    if c == '0' then binaryValue cs (2 * acc)
    else if c == '1' then binaryValue cs (2 * acc + 1)
    else none

/-- One line: none for a blank or comment line, else the byte of its first token, which must be an 8-digit base-2
literal; text after the token is ignored (R58). DESIGN CHOICE (log 24): R58 defines no token; it ends at white space or at
the end of the line and nowhere else, so that `10000010#LDI` is one token and a MalformedLiteral. -/
def parseLine (line : List Char) : Except LoadError (Option Byte) :=
  match line.dropWhile isBlank with
  | [] => .ok none
  | c :: cs =>
    if c == '#' then .ok none
    else
      let token := (c :: cs).takeWhile fun d => !isBlank d
      match binaryValue token 0 with
      | none => .error .malformedLiteral
      | some n => if token.length = 8 then .ok (some (BitVec.ofNat 8 n)) else .error .malformedLiteral

/-- The bytes of the lines, in file order. -/
def parseLines : List (List Char) → Except LoadError (List Byte)
  | [] => .ok []
  | l :: ls => do
    let b ← parseLine l
    let bs ← parseLines ls
    .ok (b.toList ++ bs)

/-- The bytes of a program image text. -/
def parseImage (text : List Char) : Except LoadError (List Byte) := parseLines (splitLines text)

/-- From an image text to the launch state: parse, reset, load, start (R58, R110, R121). -/
def bootText (text : List Char) : Except LoadError State := do
  let image ← parseImage text
  boot image

end Sys2Proof.Machine
end

