-- ==== Sys2Proof/Machine/Spelling.lean ====
section
/-! DEFINITION. The assembler spelling of 30_encoding.md R59, written and read. No rule of the core depends on it: the
sources define no assembler; details R59 leaves open are the model's (log 28). -/
namespace Sys2Proof.Machine

/-- The mnemonics, in the order of the spec's table. -/
def mnemonicOf : Op → List Char
  | .hlt => ['H', 'L', 'T']
  | .ldi => ['L', 'D', 'I']
  | .prn => ['P', 'R', 'N']
  | .add => ['A', 'D', 'D']
  | .mul => ['M', 'U', 'L']
  | .push => ['P', 'U', 'S', 'H']
  | .pop => ['P', 'O', 'P']
  | .call => ['C', 'A', 'L', 'L']
  | .ret => ['R', 'E', 'T']

/-- A byte in decimal, without leading zeros. -/
def spellByte (b : Byte) : List Char := Nat.toDigits 10 b.toNat

/-- A register operand: `R` and its number. -/
def spellReg (b : Byte) : List Char := 'R' :: spellByte b

/-- An instruction as R59 spells it: mnemonic, then operands, separated by single spaces. -/
def spell : Instr → List Char
  | .hlt => mnemonicOf .hlt
  | .ldi r v => mnemonicOf .ldi ++ ' ' :: spellReg r ++ ' ' :: spellByte v
  | .prn r => mnemonicOf .prn ++ ' ' :: spellReg r
  | .add a b => mnemonicOf .add ++ ' ' :: spellReg a ++ ' ' :: spellReg b
  | .mul a b => mnemonicOf .mul ++ ' ' :: spellReg a ++ ' ' :: spellReg b
  | .push r => mnemonicOf .push ++ ' ' :: spellReg r
  | .pop r => mnemonicOf .pop ++ ' ' :: spellReg r
  | .call r => mnemonicOf .call ++ ' ' :: spellReg r
  | .ret => mnemonicOf .ret

/-- The tokens of a line: separated by white space, or by a comma as R59 allows between operands. -/
def tokensOf : List Char → List (List Char)
  | [] => []
  | c :: cs =>
    if isBlank c || c == ',' then tokensOf cs
    else
      match cs, tokensOf cs with
      | [], ts => [c] :: ts
      | _ :: _, [] => [[c]]
      | d :: _, t :: ts => if isBlank d || d == ',' then [c] :: t :: ts else (c :: t) :: ts

/-- The value of a digit below the base; letters in either case. -/
def digitValue (base : Nat) (c : Char) : Option Nat :=
  let v :=
    if '0' ≤ c ∧ c ≤ '9' then c.toNat - 48
    else if 'a' ≤ c ∧ c ≤ 'f' then c.toNat - 87
    else if 'A' ≤ c ∧ c ≤ 'F' then c.toNat - 55
    else base
  if v < base then some v else none

/-- The value of one or more digits, most significant first. -/
def digitsValue (base : Nat) : List Char → Nat → Option Nat
  | [], _ => none
  | [c], acc => (digitValue base c).map fun d => base * acc + d
  | c :: cs, acc =>
    match digitValue base c with
    | none => none
    | some d => digitsValue base cs (base * acc + d)

/-- An immediate 0..255: decimal, or with prefix `0x` or `0b` (R59). -/
def readImm (token : List Char) : Option Byte :=
  let n :=
    match token with
    | '0' :: 'x' :: ds => digitsValue 16 ds 0
    | '0' :: 'b' :: ds => digitsValue 2 ds 0
    | ds => digitsValue 10 ds 0
  match n with
  | none => none
  | some v => if v ≤ 255 then some (BitVec.ofNat 8 v) else none

/-- A register operand: `R0` to `R7`, or the spec's alias `SP` for R7 (R59). -/
def readReg (token : List Char) : Option Byte :=
  match token with
  | ['S', 'P'] => some 7
  | ['R', c] => (digitValue 8 c).map fun d => BitVec.ofNat 8 d
  | _ => none

/-- The instruction a line of assembly spells; none where it is not one (R59). -/
def readAssembly (line : List Char) : Option Instr :=
  match tokensOf line with
  | [] => none
  | m :: operands =>
    match Op.all.find? (fun p => mnemonicOf p == m), operands with
    | some .ldi, [x, y] => do some <| .ldi (← readReg x) (← readImm y)
    | some .add, [x, y] => do some <| .add (← readReg x) (← readReg y)
    | some .mul, [x, y] => do some <| .mul (← readReg x) (← readReg y)
    | some .prn, [x] => do some <| .prn (← readReg x)
    | some .push, [x] => do some <| .push (← readReg x)
    | some .pop, [x] => do some <| .pop (← readReg x)
    | some .call, [x] => do some <| .call (← readReg x)
    | some .hlt, [] => some .hlt
    | some .ret, [] => some .ret
    | _, _ => none

end Sys2Proof.Machine
end

