-- ==== Sys2Proof/Safety.lean ====
section
/-! DEFINITION. The terms claims are stated in: the end of a run (40_execution_cycle.md R77), the table of registers
read and written (10_state.md R14), the invariant of the machine, and the states the core and the host can reach. -/
namespace Sys2Proof.Machine

/-- `k` steps of the core, up to the first that gives no next state. -/
def steps : Nat → State → Host.Outcome State Fault Refusal
  | 0, s => .next s
  | k + 1, s =>
    match step s with
    | .next t => steps k t
    | .fault r => .fault r
    | .refused r => .refused r

/-- A terminal state (R17, R77). -/
def Terminal (s : State) : Prop := s.run = .halted ∨ s.run = .faulted

/-- A clean end of a run (R77): halted, and no fault recorded. -/
def CleanHalt (s : State) : Prop := s.run = .halted ∧ s.fcause = .noFault

/-- The encoding of `i` stands at pc, all of it inside memory (30_encoding.md R50, 20_memory.md R33). -/
def StandsAt (o : Opcodes) (i : Instr) (s : State) : Prop :=
  s.pc.toNat + (encodeWith o i).length ≤ 256 ∧
    ∀ k b, (encodeWith o i)[k]? = some b → s.mem.read (s.pc.toNat + k) = b

/-- The run state and the fault record are the same. -/
def SameControl (s t : State) : Prop :=
  t.run = s.run ∧ t.fcause = s.fcause ∧ t.fpc = s.fpc ∧ t.finfo = s.finfo

/-- Every byte of memory is the same. -/
def SameMemory (s t : State) : Prop := ∀ a, t.mem.read a = s.mem.read a

/-- The registers an instruction reads, by the table of 10_state.md R14, as operand bytes. -/
def regsRead : Instr → List Byte
  | .hlt => []
  | .ldi _ _ => []
  | .prn r => [r]
  | .add a b => [a, b]
  | .mul a b => [a, b]
  | .push r => [7, r]
  | .pop _ => [7]
  | .call r => [7, r]
  | .ret => [7]

/-- The registers an instruction writes, by the table of 10_state.md R14, as operand bytes. -/
def regsWritten : Instr → List Byte
  | .hlt => []
  | .ldi r _ => [r]
  | .prn _ => []
  | .add a _ => [a]
  | .mul a _ => [a]
  | .push _ => [7]
  | .pop r => [r, 7]
  | .call _ => [7]
  | .ret => [7]

/-- The data access of the table of 20_memory.md R37 for a state with this stack pointer: its address and whether it is a
write. -/
def dataAccess (sp : Nat) : Instr → List (Nat × Bool)
  | .hlt => []
  | .ldi _ _ => []
  | .prn _ => []
  | .add _ _ => []
  | .mul _ _ => []
  | .push _ => [(sp - 1, true)]
  | .pop _ => [(sp, false)]
  | .call _ => [(sp - 1, true)]
  | .ret => [(sp, false)]

/-- What each cause may have recorded in a state the machine can reach (60_exceptions.md R100, R102, R104, 42_alu.md R89). -/
def DatumOk (s : State) : Prop :=
  match s.fcause with
  | .noFault => s.fpc = 0 ∧ s.finfo = 0
  | .illegalOpcode => 0 ≤ s.finfo ∧ s.finfo ≤ 255
  | .outOfBounds => s.finfo = -1 ∨ s.finfo = 256
  | .invalidRegister => 8 ≤ s.finfo ∧ s.finfo ≤ 255
  | .unsupportedAluOp => False

/-- The invariant: memory in canonical form, pc in 0..256 (10_state.md R15), a fault recorded exactly in Faulted with
fpc the pc it stopped at (R18, 60_exceptions.md R101), and a datum its cause allows. -/
structure CoreInv (s : State) : Prop where
  mem : s.mem.wf
  pc : s.pc.toNat ≤ 256
  faulted : s.run = .faulted ↔ s.fcause ≠ .noFault
  fpc : s.run = .faulted → s.fpc = s.pc
  datum : DatumOk s

/-- The states reached from reset by steps of the core and actions of the host, in any order. -/
inductive Reachable : State → Prop where
  | reset : Reachable State.reset
  | host (e : HostEvent) (s : State) : Reachable s → Reachable (hostApply e s)
  | step (s t : State) : Reachable s → Machine.step s = .next t → Reachable t

end Sys2Proof.Machine
end

