-- ==== Sys2Proof/Certificates/Slice0/Obligations.lean ====
section
/-! DEFINITION. The statements about the machine, each from a rule of spec/. A statement whose docstring names a decision
D<n> or a log entry rests on the spec's own decision or on the model's choice there, not on the source. -/

open Sys2Proof Sys2Proof.Machine

/-! ### Reset and the invariant -/

/-- Reset (70_reset_and_hazards.md, 10_state.md section 6). R0 to R6 are 0 by DESIGN CHOICE (D4, log 4); the record is
the spec's decision D5 (log 5); that reset from any state gives this state is decision D16 (log 15). -/
def Obligations.ResetLeavesTheSpecifiedValues : Prop :=
  (∀ i : RegIdx, State.reset.reg i = if i = 7 then 255 else 0) ∧
    State.reset.sp = 255 ∧
    State.reset.pc = 0 ∧
    (∀ a, State.reset.mem.read a = 0) ∧
    State.reset.run = .idle ∧
    State.reset.fcause = .noFault ∧ State.reset.fpc = 0 ∧ State.reset.finfo = 0 ∧
    State.reset.out = [] ∧
    ∀ s, hostApply .reset s = State.reset

/-- The invariant holds at reset. -/
def Obligations.ResetMeetsTheInvariant : Prop := CoreInv State.reset

/-- Every step keeps the invariant, with the default opcode bytes and with any others: memory stays canonical, pc stays
in 0..256 (10_state.md section 2, D2), a fault is recorded exactly in Faulted with fpc = pc (D5, D6), and the datum of
each cause stays in its range, -1 or 256 for OutOfBounds (60_exceptions.md section 1). -/
def Obligations.EveryStepKeepsTheInvariant : Prop :=
  (∀ s t, CoreInv s → step s = .next t → CoreInv t) ∧
    ∀ o s t, CoreInv s → cycle o s = .next t → CoreInv t

/-- The host's actions keep the invariant, and so does every state reached from reset by steps and host actions. -/
def Obligations.ReachableStatesMeetTheInvariant : Prop :=
  (∀ e s, CoreInv s → CoreInv (hostApply e s)) ∧ ∀ s, Reachable s → CoreInv s

/-! ### Encoding -/

/-- Decoding an encoded instruction, whatever bytes follow it and whatever the nine distinct opcode bytes are, gives the
instruction back, with every operand byte at every value (30_encoding.md section 1). -/
def Obligations.DecodeOfEncodeIsTheInstruction : Prop :=
  (∀ o : Opcodes, o.Distinct → ∀ (i : Instr) (rest : List Byte), decodeWith o (encodeWith o i ++ rest) = .ok i) ∧
    ∀ i : Instr, decode (encode i) = .ok i

/-- The other direction: bytes that decode to an instruction begin with its encoding, for any opcode bytes at all. -/
def Obligations.DecodedBytesBeginWithTheEncoding : Prop :=
  ∀ (o : Opcodes) (bs : List Byte) (i : Instr), decodeWith o bs = .ok i → encodeWith o i <+: bs

/-- The formats and the operand-count table (30_encoding.md R50, R51): which bytes are which operand of which instruction,
how many bytes each needs, and no length for a byte that is no opcode. -/
def Obligations.DecoderFollowsTheFormatTable : Prop :=
  ∀ o : Opcodes, o.Distinct → ∀ (x y : Byte) (rest : List Byte),
    decodeWith o (o.hlt :: rest) = .ok .hlt ∧
    decodeWith o (o.ret :: rest) = .ok .ret ∧
    decodeWith o (o.prn :: x :: rest) = .ok (.prn x) ∧
    decodeWith o (o.push :: x :: rest) = .ok (.push x) ∧
    decodeWith o (o.pop :: x :: rest) = .ok (.pop x) ∧
    decodeWith o (o.call :: x :: rest) = .ok (.call x) ∧
    decodeWith o (o.ldi :: x :: y :: rest) = .ok (.ldi x y) ∧
    decodeWith o (o.add :: x :: y :: rest) = .ok (.add x y) ∧
    decodeWith o (o.mul :: x :: y :: rest) = .ok (.mul x y) ∧
    (∀ p : Op, p ∉ [Op.hlt, Op.ret] → decodeWith o [o.byteOf p] = .error (.missingByte 1)) ∧
    (∀ p : Op, p ∈ [Op.ldi, Op.add, Op.mul] → decodeWith o [o.byteOf p, x] = .error (.missingByte 2)) ∧
    ∀ b : Byte, (∀ p, o.byteOf p ≠ b) → decodeWith o (b :: rest) = .error (.illegalOpcode b)

/-- One word for each instruction, written out from the encodings of 30_encoding.md section 2. The opcode bytes are
PRESUMED (the spec's decision D1, from general knowledge; log 1). -/
def Obligations.DefaultOpcodeWordsDecode : Prop :=
  decode [0b00000001] = .ok .hlt ∧
    decode [0b10000010, 0, 8] = .ok (.ldi 0 8) ∧
    decode [0b01000111, 7] = .ok (.prn 7) ∧
    decode [0b10100000, 0, 1] = .ok (.add 0 1) ∧
    decode [0b10100010, 4, 4] = .ok (.mul 4 4) ∧
    decode [0b01000101, 2] = .ok (.push 2) ∧
    decode [0b01000110, 1] = .ok (.pop 1) ∧
    decode [0b01010000, 3] = .ok (.call 3) ∧
    decode [0b00010001] = .ok .ret ∧
    decode [0b00000000] = .error (.illegalOpcode 0) ∧
    decode [0b10000011] = .error (.illegalOpcode 131)

/-- The decoder is stateless (30_encoding.md R57): what a byte at pc selects depends on that byte alone, whatever the
registers, the rest of memory, the address and the past of the run are. -/
def Obligations.DecodingDependsOnTheOpcodeByteAlone : Prop :=
  ∀ (o : Opcodes) (s u : State), s.pc.toNat ≤ 255 → u.pc.toNat ≤ 255 →
    s.mem.read s.pc.toNat = u.mem.read u.pc.toNat →
    (∀ i j, fetchInstr o s = .ok i → fetchInstr o u = .ok j → i.op = j.op) ∧
      ∀ b, fetchInstr o s = .error (.illegalOpcode b) → fetchInstr o u = .error (.illegalOpcode b)

/-! ### The step -/

/-- Opcode fetch and decode (40_execution_cycle.md R71, 30_encoding.md R56), for any distinct opcode bytes: past the end
of memory the fetch faults with pc; a byte that is none of the nine (247 of the 256 values) faults with the byte, also
at address 255, with no operand fetched; one of the nine selects its operation. -/
def Obligations.OpcodeFetchAndDecode : Prop :=
  ∀ (o : Opcodes), o.Distinct →
    ((List.range 256).filter fun n => (decodeOpcode o (BitVec.ofNat 8 n)).isNone).length = 247 ∧
    ∀ s : State, s.run = .running →
      (255 < s.pc.toNat → cycle o s = .next (raise s (.outOfBounds s.pc.toNat))) ∧
      (s.pc.toNat ≤ 255 → (∀ p, o.byteOf p ≠ s.mem.read s.pc.toNat) →
        cycle o s = .next (raise s (.illegalOpcode (s.mem.read s.pc.toNat)))) ∧
      (s.pc.toNat ≤ 255 → ∀ p, o.byteOf p = s.mem.read s.pc.toNat →
        (∀ i, fetchInstr o s = .ok i → i.op = p) ∧
          ∀ e, fetchInstr o s = .error e → ∃ a, e = .outOfBounds a)

/-- Operand fetch (40_execution_cycle.md section 1; no read-ahead is the spec's decision D11, log 11; that this fault comes
before the register check is decision D7, log 7): an instruction whose bytes lie inside memory is executed on the bytes
after its opcode, HLT and RET at 255 too; otherwise the step faults with OutOfBounds(256), whatever the operands are. -/
def Obligations.OperandFetchReadsExactlyTheOperands : Prop :=
  ∀ (o : Opcodes), o.Distinct → ∀ (s : State) (p : Op), s.run = .running → s.pc.toNat ≤ 255 →
    s.mem.read s.pc.toNat = o.byteOf p →
    (s.pc.toNat + operandCount p ≤ 255 →
      cycle o s = exec (assemble p (s.mem.read (s.pc.toNat + 1)) (s.mem.read (s.pc.toNat + 2))) s) ∧
      (255 < s.pc.toNat + operandCount p → cycle o s = .next (raise s (.outOfBounds 256)))

/-- When the bytes at pc are those of an instruction and the core runs, the step is that instruction's execution and
nothing more: pc is moved by the instruction's own meaning (40_execution_cycle.md section 1). -/
def Obligations.StepRunsTheDecodedInstruction : Prop :=
  (∀ (i : Instr) (s : State), s.run = .running → StandsAt defaultOpcodes i s → step s = exec i s) ∧
    (∀ (o : Opcodes), o.Distinct → ∀ (i : Instr) (s : State), s.run = .running → StandsAt o i s → cycle o s = exec i s) ∧
    ∀ (i : Instr) (s : State), s.run = .running → fetchInstr defaultOpcodes s = .ok i → step s = exec i s

/-- From a running state there is exactly one next state (40_execution_cycle.md R79), and no instruction stops without
one. -/
def Obligations.EveryRunningStateHasExactlyOneNextState : Prop :=
  (∀ s : State, s.run = .running → ∃! t, step s = .next t) ∧ ∀ (i : Instr) (s : State), ∃ t, exec i s = .next t

/-- A step ends in exactly one of three ways (40_execution_cycle.md section 1): the core goes on running with no fault
recorded anew, it halts by HLT with nothing else changed, or a fault is taken (fault entry: log 20); and a halted run is a
clean one, with no fault recorded. -/
def Obligations.AStepEndsInOneOfThreeWays : Prop :=
  ∀ (o : Opcodes) (s t : State), s.run = .running → cycle o s = .next t →
    ((t.run = .running ∧ SameControl s t ∧ ∃ i, i ≠ .hlt ∧ fetchInstr o s = .ok i) ∨
      (t.run = .halted ∧ fetchInstr o s = .ok .hlt ∧ t = s.setRun .halted) ∨
      (t.run = .faulted ∧ ∃ e, t = raise s e)) ∧
    (CoreInv s → t.run = .halted → CleanHalt t)

/-- The end of a run (40_execution_cycle.md section 2, 60_exceptions.md section 3): steps never leave a terminal state nor
change it (that a step outside Running answers the same state is the model's DESIGN CHOICE, log 19), and of the host's
actions only reset does. -/
def Obligations.OnlyResetLeavesATerminalState : Prop :=
  ∀ s : State, Terminal s →
    (∀ k, steps k s = .next s) ∧
      ∀ e : HostEvent, e ≠ .reset → hostApply e s = s

/-! ### Faults -/

/-- Faults are precise (40_execution_cycle.md section 1; the spec's decision D6, log 6): a step that faults changes nothing
but the run state and the fault record. -/
def Obligations.FaultsArePrecise : Prop :=
  ∀ (o : Opcodes) (s t : State), s.run = .running → cycle o s = .next t → t.run = .faulted →
    (∀ i, t.reg i = s.reg i) ∧ SameMemory s t ∧ t.pc = s.pc ∧ t.out = s.out ∧
      t.fpc = s.pc ∧ t.fcause ≠ .noFault

/-- What the host reads of a fault (10_state.md section 7, 60_exceptions.md section 1; codes and record are the spec's
decisions D5 and D12, log 5 and 12): run state 3, a cause code 1 to 3, the faulting pc, and the datum, which the ten
bits of the port hold. -/
def Obligations.FaultPortsCarryTheRecord : Prop :=
  ∀ s t : State, CoreInv s → s.run = .running → step s = .next t → t.run = .faulted →
    portRunState t = 3 ∧ portFaultPc t = s.pc ∧ (portFaultInfo t).toInt = t.finfo ∧
      ((portFaultCause t = 1 ∧ ∃ b : Byte, t.finfo = b.toNat ∧ s.mem.read s.pc.toNat = b) ∨
        (portFaultCause t = 2 ∧ (t.finfo = -1 ∨ t.finfo = 256)) ∨
        (portFaultCause t = 3 ∧ ∃ b : Byte, t.finfo = b.toNat ∧ 8 ≤ b.toNat))

/-- UnsupportedAluOp (42_alu.md, DEDUCED there from the encodings; log 27): the ALU refuses every operation but ADD and
MUL by that name, and no step ever records it. -/
def Obligations.UnsupportedAluOpIsNeverRecorded : Prop :=
  (∀ (p : Op) (x y : Byte), p ≠ .add → p ≠ .mul → aluResult p x y = .error .unsupportedAluOp) ∧
    ∀ (o : Opcodes) (s t : State), cycle o s = .next t → t.fcause = .unsupportedAluOp → s.fcause = .unsupportedAluOp

/-- Register operands (60_exceptions.md R104): an instruction with a register operand of 8..255 raises InvalidRegister
with the first such operand byte, before it does anything; with all of them in 0..7 it never does. -/
def Obligations.RegisterOperandsAreCheckedFirst : Prop :=
  ∀ (i : Instr) (s : State),
    (∀ b, (i.regOperands.find? fun c => decide (8 ≤ c.toNat)) = some b →
      exec i s = .next (raise s (.invalidRegister b))) ∧
      (i.wf = true → ∀ t, exec i s = .next t → s.fcause ≠ .invalidRegister → t.fcause ≠ .invalidRegister)

/-- The ends of the stack and of the return address (43_stack.md, 44_call_ret.md; the spec's decisions D8 and D9, log 8 and
9, and the order D7, log 7): PUSH and CALL with sp = 0 raise OutOfBounds(-1); POP (not R7) and RET with sp = 255, and
POP R7 of the value 255, raise OutOfBounds(256); CALL at 254 with room on the stack raises OutOfBounds(256), pc + 2 (and so does exec at a pc above 254, where no step
executes a CALL). -/
def Obligations.StackEndsFault : Prop :=
  ∀ (s : State) (r : Byte), r.toNat < 8 →
    (s.sp = 0 → exec (.push r) s = .next (raise s (.outOfBounds (-1)))) ∧
    (s.sp = 0 → exec (.call r) s = .next (raise s (.outOfBounds (-1)))) ∧
    (s.sp = 255 → r ≠ 7 → exec (.pop r) s = .next (raise s (.outOfBounds 256))) ∧
    (s.sp = 255 → exec .ret s = .next (raise s (.outOfBounds 256))) ∧
    (s.mem.read s.sp.toNat = 255 → exec (.pop 7) s = .next (raise s (.outOfBounds 256))) ∧
    (s.sp ≠ 0 → 254 ≤ s.pc.toNat → exec (.call r) s = .next (raise s (.outOfBounds ((s.pc.toNat : Int) + 2))))

/-! ### What each instruction does: result, completion and frame -/

/-- HLT (41_hlt_ldi_prn.md; that pc stays is the spec's decision D10, log 10): always completes, halts the run and changes
nothing else. -/
def Obligations.HltHaltsTheRun : Prop :=
  ∀ s : State, ∃ t, exec .hlt s = .next t ∧ t.run = .halted ∧ t.pc = s.pc ∧ (∀ i, t.reg i = s.reg i) ∧
    SameMemory s t ∧ t.out = s.out ∧ t.fcause = s.fcause ∧ t.fpc = s.fpc ∧ t.finfo = s.finfo

/-- LDI (30_encoding.md R55): the register named by the first operand gets the second operand byte as it stands, for
every value of it; pc + 3; nothing else changes. -/
def Obligations.LdiLoadsTheImmediateAsItStands : Prop :=
  ∀ (r v : Byte) (s : State), r.toNat < 8 → ∃ t, exec (.ldi r v) s = .next t ∧
    (∀ i : RegIdx, t.reg i = if i.val = r.toNat then v else s.reg i) ∧ t.pc = s.pc + 3 ∧
    SameMemory s t ∧ SameControl s t ∧ t.out = s.out

/-- PRN (41_hlt_ldi_prn.md; the register reading is the source's choice recorded as D20, the unsigned byte is decision D14,
log 14): one value, the register's, is appended to the output; pc + 2; nothing else changes. -/
def Obligations.PrnEmitsTheRegister : Prop :=
  ∀ (r : Byte) (h : r.toNat < 8) (s : State), ∃ t, exec (.prn r) s = .next t ∧
    t.out = s.out ++ [s.reg ⟨r.toNat, h⟩] ∧ t.pc = s.pc + 2 ∧ (∀ i, t.reg i = s.reg i) ∧
    SameMemory s t ∧ SameControl s t

/-- ADD (42_alu.md; results mod 256 are the spec's decision D3, log 3): the exact sum when it fits a byte, else the sum
less 256, in the first register; every other register, the second among them, keeps its value. -/
def Obligations.AddAddsModuloTwoHundredFiftySix : Prop :=
  ∀ (a b : Byte) (ha : a.toNat < 8) (hb : b.toNat < 8) (s : State), ∃ t, exec (.add a b) s = .next t ∧
    (t.reg ⟨a.toNat, ha⟩).toNat =
      (if (s.reg ⟨a.toNat, ha⟩).toNat + (s.reg ⟨b.toNat, hb⟩).toNat ≤ 255
        then (s.reg ⟨a.toNat, ha⟩).toNat + (s.reg ⟨b.toNat, hb⟩).toNat
        else (s.reg ⟨a.toNat, ha⟩).toNat + (s.reg ⟨b.toNat, hb⟩).toNat - 256) ∧
    (∀ i : RegIdx, i.val ≠ a.toNat → t.reg i = s.reg i) ∧ t.pc = s.pc + 3 ∧
    SameMemory s t ∧ SameControl s t ∧ t.out = s.out

/-- MUL (42_alu.md; results mod 256 are the spec's decision D3, log 3): the low byte of the exact product in the first
register; every other register keeps its value. -/
def Obligations.MulKeepsTheLowByteOfTheProduct : Prop :=
  ∀ (a b : Byte) (ha : a.toNat < 8) (hb : b.toNat < 8) (s : State), ∃ t, exec (.mul a b) s = .next t ∧
    (t.reg ⟨a.toNat, ha⟩).toNat = (s.reg ⟨a.toNat, ha⟩).toNat * (s.reg ⟨b.toNat, hb⟩).toNat % 256 ∧
    (∀ i : RegIdx, i.val ≠ a.toNat → t.reg i = s.reg i) ∧ t.pc = s.pc + 3 ∧
    SameMemory s t ∧ SameControl s t ∧ t.out = s.out

/-- PUSH (43_stack.md; PUSH R7 by the written order is the spec's decision D21, log 18; no wrap is D8, log 8): with sp
above 0 the stack pointer goes down by 1 and the register is stored there, for R7 the NEW stack pointer; pc + 2; every
other register and byte is unchanged. -/
def Obligations.PushStoresBelowTheOldTop : Prop :=
  ∀ (r : Byte) (h : r.toNat < 8) (s : State), s.sp ≠ 0 → s.mem.wf → ∃ t, exec (.push r) s = .next t ∧
    t.sp.toNat = s.sp.toNat - 1 ∧
    t.mem.read (s.sp.toNat - 1) = (if r = 7 then BitVec.ofNat 8 (s.sp.toNat - 1) else s.reg ⟨r.toNat, h⟩) ∧
    (∀ a, a ≠ s.sp.toNat - 1 → t.mem.read a = s.mem.read a) ∧
    (∀ i : RegIdx, i ≠ 7 → t.reg i = s.reg i) ∧ t.pc = s.pc + 2 ∧ SameControl s t ∧ t.out = s.out

/-- POP (43_stack.md; POP R7 by the written order is the spec's decision D21, log 18; no wrap is D8, log 8): another
register than R7 gets the byte at the old stack pointer, which then goes up by 1; POP R7 leaves that byte plus 1 in the
stack pointer; the cell keeps its byte; pc + 2; nothing else changes. -/
def Obligations.PopLoadsTheTop : Prop :=
  (∀ (r : Byte) (h : r.toNat < 8) (s : State), r ≠ 7 → s.sp ≠ 255 → ∃ t, exec (.pop r) s = .next t ∧
    t.reg ⟨r.toNat, h⟩ = s.mem.read s.sp.toNat ∧ t.sp.toNat = s.sp.toNat + 1 ∧
    (∀ i : RegIdx, i ≠ 7 → i.val ≠ r.toNat → t.reg i = s.reg i) ∧ t.pc = s.pc + 2 ∧
    SameMemory s t ∧ SameControl s t ∧ t.out = s.out) ∧
  ∀ s : State, s.mem.read s.sp.toNat ≠ 255 → ∃ t, exec (.pop 7) s = .next t ∧
    t.sp.toNat = (s.mem.read s.sp.toNat).toNat + 1 ∧
    (∀ i : RegIdx, i ≠ 7 → t.reg i = s.reg i) ∧ t.pc = s.pc + 2 ∧
    SameMemory s t ∧ SameControl s t ∧ t.out = s.out

/-- CALL (44_call_ret.md; CALL R7 by the written order is the spec's decision D21, log 18; the limits are D8 and D9, log 8
and 9): with sp above 0 and pc below 254 the return address pc + 2 is pushed and pc becomes the register's value, for R7
the NEW stack pointer; every other register and byte is unchanged. -/
def Obligations.CallPushesTheReturnAddressAndJumps : Prop :=
  ∀ (r : Byte) (h : r.toNat < 8) (s : State), s.sp ≠ 0 → s.pc.toNat < 254 → s.mem.wf → ∃ t, exec (.call r) s = .next t ∧
    t.sp.toNat = s.sp.toNat - 1 ∧
    (t.mem.read (s.sp.toNat - 1)).toNat = s.pc.toNat + 2 ∧
    (∀ a, a ≠ s.sp.toNat - 1 → t.mem.read a = s.mem.read a) ∧
    t.pc.toNat = (if r = 7 then s.sp.toNat - 1 else (s.reg ⟨r.toNat, h⟩).toNat) ∧
    (∀ i : RegIdx, i ≠ 7 → t.reg i = s.reg i) ∧ SameControl s t ∧ t.out = s.out

/-- RET (44_call_ret.md; no wrap is the spec's decision D8, log 8): with sp below 255 pc becomes the byte at the old stack
pointer, which goes up by 1; the cell keeps its byte; nothing else changes. -/
def Obligations.RetJumpsToTheTop : Prop :=
  ∀ s : State, s.sp ≠ 255 → ∃ t, exec .ret s = .next t ∧
    t.pc.toNat = (s.mem.read s.sp.toNat).toNat ∧ t.sp.toNat = s.sp.toNat + 1 ∧
    (∀ i : RegIdx, i ≠ 7 → t.reg i = s.reg i) ∧ SameMemory s t ∧ SameControl s t ∧ t.out = s.out

/-! ### Frames over all instructions -/

/-- The table of registers read and written (10_state.md R14): a register an instruction does not write keeps its value,
and the value of a register it does not read changes nothing it does: not pc, memory, run state, record or output, no
other register, and not that register either where the instruction writes it and goes on running. -/
def Obligations.RegistersReadAndWrittenAreTheTables : Prop :=
  (∀ (i : Instr) (s t : State) (k : RegIdx), exec i s = .next t → (∀ b ∈ regsWritten i, b.toNat ≠ k.val) →
    t.reg k = s.reg k) ∧
  ∀ (i : Instr) (s t u : State) (k : RegIdx) (v : Byte), (∀ b ∈ regsRead i, b.toNat ≠ k.val) →
    exec i s = .next t → exec i (s.setReg k v) = .next u →
    u.pc = t.pc ∧ SameMemory t u ∧ SameControl t u ∧ u.out = t.out ∧ (∀ j, j ≠ k → u.reg j = t.reg j) ∧
      (s.run = .running → t.run = .running → (∃ b ∈ regsWritten i, b.toNat = k.val) → u.reg k = t.reg k)

/-- Who writes memory (10_state.md R16): it is all zero at construction; the Loader writes the cell it names, while Idle;
PUSH and CALL write the one cell below the stack pointer, computed by the same stack-pointer step their meanings use;
no other instruction writes any. -/
def Obligations.OnlyPushCallAndTheLoaderWriteMemory : Prop :=
  (∀ a, State.reset.mem.read a = 0) ∧
  (∀ (s : State) (a v : Byte), s.run = .idle → s.mem.wf →
    (hostLoad a v s).mem.read a.toNat = v ∧ ∀ c, c ≠ a.toNat → (hostLoad a v s).mem.read c = s.mem.read c) ∧
  (∀ (i : Instr) (s t : State), exec i s = .next t → (∀ r, i ≠ .push r) → (∀ r, i ≠ .call r) → SameMemory s t) ∧
  ∀ (r : Byte) (s t : State), exec (.push r) s = .next t ∨ exec (.call r) s = .next t →
    ∀ a, (∀ k : Byte, spBelow s.sp = .ok k → a ≠ k.toNat) → t.mem.read a = s.mem.read a

/-- The output channel (10_state.md section 5; decision D14, log 14): a step never shortens it, only PRN extends it, and
by at most one value. -/
def Obligations.OnlyPrnExtendsTheOutput : Prop :=
  (∀ (i : Instr) (s t : State), exec i s = .next t → (∀ r, i ≠ .prn r) → t.out = s.out) ∧
    (∀ (r : Byte) (s t : State), exec (.prn r) s = .next t → t.out = s.out ∨ ∃ v, t.out = s.out ++ [v]) ∧
    ∀ (o : Opcodes) (s t : State), cycle o s = .next t → s.out <+: t.out

/-- The run state and the fault record (10_state.md section 4; decision D12, log 12): HLT is the only instruction that
writes the run state, a fault the only other writer, and only a fault writes the record. -/
def Obligations.OnlyHltAndFaultsWriteTheRunState : Prop :=
  ∀ (i : Instr) (s t : State), exec i s = .next t → (∀ e, t ≠ raise s e) →
    t.fcause = s.fcause ∧ t.fpc = s.fpc ∧ t.finfo = s.finfo ∧
      (i ≠ .hlt → t.run = s.run) ∧ (i = .hlt → t.run = .halted)

/-- The program counter (10_state.md section 2; HLT is the spec's decision D10, log 10): but for CALL and RET an
instruction that does not fault moves pc past its own bytes, HLT leaves it; a fault leaves it (D6, log 6). -/
def Obligations.PcMovesByTheInstructionLength : Prop :=
  ∀ (i : Instr) (s t : State), exec i s = .next t → (∀ r, i ≠ .call r) → i ≠ .ret →
    (t.pc = s.pc ∧ (i = .hlt ∨ ∃ e, t = raise s e)) ∨
      (i ≠ .hlt ∧ t.pc = s.pc + BitVec.ofNat 9 (1 + operandCount i.op))

/-- Cell 255 is never written by an instruction (20_memory.md section 3, derived there): no step changes it. -/
def Obligations.CellTwoFiftyFiveIsNeverWritten : Prop :=
  ∀ (o : Opcodes) (s t : State), cycle o s = .next t → t.mem.read 255 = s.mem.read 255

/-! ### Memory -/

/-- Accesses have no side effects (20_memory.md R35) and are refused outside 0..255 (R31): a read is a function of the cell,
in range or refused; after a write the cell reads as the byte written, every other address reads as before, only memory
changed, and memory is in canonical form again (the model's own form, DESIGN CHOICE, log 21). -/
def Obligations.AWriteChangesOnlyItsCell : Prop :=
  ∀ (s : State) (a : Int) (v : Byte), s.mem.wf →
    (0 ≤ a ∧ a ≤ 255 → ∃ t, memWrite s a v = .ok t ∧ t.mem.wf ∧ memRead t a = .ok v ∧
      (∀ b : Int, b ≠ a → memRead t b = memRead s b) ∧ t = s.setMem t.mem) ∧
    (a < 0 ∨ 255 < a → memWrite s a v = .error (.outOfBounds a) ∧ memRead s a = .error (.outOfBounds a))

/-- The accesses of each instruction, in order (20_memory.md R37): a step that completes an instruction reads its bytes at
pc, pc + 1, pc + 2 as many as it has, then PUSH and CALL write below the stack pointer, POP and RET read at it, and no
other instruction makes a data access; and of every step, the writes among its accesses are all that happens to memory. -/
def Obligations.EachStepMakesTheTablesAccesses : Prop :=
  (∀ (o : Opcodes) (s t : State) (i : Instr), s.run = .running → fetchInstr o s = .ok i → cycle o s = .next t →
    t.run ≠ .faulted →
    (stepBus o s).map (fun x => (x.addr, x.isWrite)) =
      ((List.range (1 + operandCount i.op)).map fun k => (s.pc.toNat + k, false)) ++ dataAccess s.sp.toNat i) ∧
  ∀ (o : Opcodes) (s t : State), cycle o s = .next t → t.mem = busReplay s.mem (stepBus o s)

/-- Two memories in canonical form that read alike at every address of the space are the same data (the model's form,
DESIGN CHOICE, log 21). -/
def Obligations.CanonicalMemoriesThatReadAlikeAreEqual : Prop :=
  ∀ m n : Memory, m.wf → n.wf → (∀ a, a < 256 → m.read a = n.read a) → m = n

/-- A store is seen by the very next fetch (20_memory.md section 4, derived there): a PUSH that stores just after itself
makes the byte pushed the next opcode, and if that is HLT's the next step halts. -/
def Obligations.AStoreIsSeenByTheNextFetch : Prop :=
  ∀ (o : Opcodes), o.Distinct → ∀ (s : State) (r : Byte) (h : r.toNat < 8), r ≠ 7 → s.run = .running → s.mem.wf →
    StandsAt o (.push r) s → s.sp.toNat = s.pc.toNat + 3 →
    ∃ t, cycle o s = .next t ∧ fetchByte t 0 = some (s.reg ⟨r.toNat, h⟩) ∧
      (s.reg ⟨r.toNat, h⟩ = o.hlt → cycle o t = .next (t.setRun .halted))

/-! ### Two-instruction laws -/

/-- The push/pop inverse law with its exact side conditions (43_stack.md, derived there; R7 by decision D21, log 18). -/
def Obligations.PopAfterPushRestores : Prop :=
  ∀ (o : Opcodes), o.Distinct → ∀ (s : State) (r q : Byte) (h : r.toNat < 8) (hq : q.toNat < 7),
    s.run = .running → s.mem.wf → s.pc.toNat ≤ 252 → s.sp ≠ 0 →
    s.sp.toNat - 1 ≠ s.pc.toNat + 2 → s.sp.toNat - 1 ≠ s.pc.toNat + 3 →
    s.mem.read s.pc.toNat = o.push → s.mem.read (s.pc.toNat + 1) = r →
    s.mem.read (s.pc.toNat + 2) = o.pop → s.mem.read (s.pc.toNat + 3) = q →
    ∃ t u, cycle o s = .next t ∧ cycle o t = .next u ∧
      u.reg ⟨q.toNat, by omega⟩ = (if r = 7 then s.sp - 1 else s.reg ⟨r.toNat, h⟩) ∧
      u.sp = s.sp ∧
      u.mem.read (s.sp.toNat - 1) = (if r = 7 then s.sp - 1 else s.reg ⟨r.toNat, h⟩) ∧
      u.pc.toNat = s.pc.toNat + 4 ∧
      (∀ i : RegIdx, i.val ≠ q.toNat → u.reg i = s.reg i) ∧
      (∀ a, a ≠ s.sp.toNat - 1 → u.mem.read a = s.mem.read a) ∧ SameControl s u ∧ u.out = s.out

/-- The call/return law (44_call_ret.md, derived there): a CALL at p pushes p + 2 and jumps; any later RET executed with
the stack pointer and the pushed byte as the CALL left them goes to p + 2 and restores the stack pointer. -/
def Obligations.RetAfterCallReturns : Prop :=
  ∀ (o : Opcodes), o.Distinct → ∀ (s : State) (r : Byte) (h : r.toNat < 7), s.run = .running → s.mem.wf →
    s.pc.toNat ≤ 253 → s.sp ≠ 0 → StandsAt o (.call r) s →
    (∃ t, cycle o s = .next t ∧ t.pc.toNat = (s.reg ⟨r.toNat, by omega⟩).toNat ∧ t.sp.toNat = s.sp.toNat - 1 ∧
      (t.mem.read (s.sp.toNat - 1)).toNat = s.pc.toNat + 2) ∧
    ∀ v : State, v.run = .running → StandsAt o .ret v → v.sp.toNat = s.sp.toNat - 1 →
      (v.mem.read (s.sp.toNat - 1)).toNat = s.pc.toNat + 2 →
      ∃ w, cycle o v = .next w ∧ w.pc.toNat = s.pc.toNat + 2 ∧ w.sp = s.sp

/-! ### The host -/

/-- The host's start and load (40_execution_cycle.md section 2, 10_state.md section 7; the start event is the spec's
decision D17, the load port D13, log 16): both act only in Idle; start changes the run state alone. -/
def Obligations.StartAndLoadActOnlyInIdle : Prop :=
  (∀ s : State, s.run ≠ .idle → hostApply .start s = s ∧ ∀ a v, hostApply (.load a v) s = s) ∧
    ∀ s : State, s.run = .idle → (hostApply .start s).run = .running ∧ (hostApply .start s).regs = s.regs ∧
      (hostApply .start s).pc = s.pc ∧ (hostApply .start s).mem = s.mem ∧ (hostApply .start s).out = s.out ∧
      (hostApply .start s).fcause = s.fcause ∧ (hostApply .start s).fpc = s.fpc ∧ (hostApply .start s).finfo = s.finfo

/-- The launch state (70_reset_and_hazards.md section 2; R0 to R6 by D4, log 4; reset by D16, log 15; start by D17, log
16): an image of 1 to 256 bytes stands at 0, 1, 2, ... with zeros after it and the core runs from reset values; an empty
image and one that is too long start nothing (that the latter is refused at load is DESIGN CHOICE, log 24). -/
def Obligations.BootGivesTheLaunchState : Prop :=
  boot [] = .error .emptyProgram ∧
  (∀ image : List Byte, 256 < image.length → boot image = .error .imageTooLong) ∧
  ∀ image : List Byte, 1 ≤ image.length → image.length ≤ 256 → ∃ s, boot image = .ok s ∧
    s.run = .running ∧ s.pc = 0 ∧ (∀ i : RegIdx, s.reg i = if i = 7 then 255 else 0) ∧
    (∀ k, s.mem.read k = image.getD k 0) ∧ s.fcause = .noFault ∧ s.out = [] ∧ CoreInv s

/-- A program image of comment and blank lines only (60_exceptions.md section 5, 30_encoding.md section 5; what counts as
white space is DESIGN CHOICE, log 24) fails with EmptyProgram and starts nothing. -/
def Obligations.CommentOnlyImageIsEmptyProgram : Prop :=
  ∀ text : List Char,
    (∀ l ∈ splitLines text, l.dropWhile isBlank = [] ∨ ∃ cs, l.dropWhile isBlank = '#' :: cs) →
    bootText text = .error .emptyProgram

/-- The assembler spelling (30_encoding.md section 5; the reader's details are DESIGN CHOICE, log 28): the line that
spells an instruction with registers 0..7 is read back as that instruction. -/
def Obligations.AssemblyReadsBackTheSpelling : Prop := ∀ i : Instr, i.wf = true → readAssembly (spell i) = some i
end

