-- ==== Sys2Proof/Laws/State.lean ====
section
/-! SUPPORT. One lemma per field per update of State, so that no later proof unfolds a record update. -/
namespace Sys2Proof.Machine

/-! ### setReg -/

@[simp] theorem State.setReg_pc (s : State) (i : RegIdx) (v : Byte) : (s.setReg i v).pc = s.pc := rfl
@[simp] theorem State.setReg_mem (s : State) (i : RegIdx) (v : Byte) : (s.setReg i v).mem = s.mem := rfl
@[simp] theorem State.setReg_run (s : State) (i : RegIdx) (v : Byte) : (s.setReg i v).run = s.run := rfl
@[simp] theorem State.setReg_fcause (s : State) (i : RegIdx) (v : Byte) : (s.setReg i v).fcause = s.fcause := rfl
@[simp] theorem State.setReg_fpc (s : State) (i : RegIdx) (v : Byte) : (s.setReg i v).fpc = s.fpc := rfl
@[simp] theorem State.setReg_finfo (s : State) (i : RegIdx) (v : Byte) : (s.setReg i v).finfo = s.finfo := rfl
@[simp] theorem State.setReg_out (s : State) (i : RegIdx) (v : Byte) : (s.setReg i v).out = s.out := rfl

/-! ### setSp -/

@[simp] theorem State.setSp_pc (s : State) (v : Byte) : (s.setSp v).pc = s.pc := rfl
@[simp] theorem State.setSp_mem (s : State) (v : Byte) : (s.setSp v).mem = s.mem := rfl
@[simp] theorem State.setSp_run (s : State) (v : Byte) : (s.setSp v).run = s.run := rfl
@[simp] theorem State.setSp_fcause (s : State) (v : Byte) : (s.setSp v).fcause = s.fcause := rfl
@[simp] theorem State.setSp_fpc (s : State) (v : Byte) : (s.setSp v).fpc = s.fpc := rfl
@[simp] theorem State.setSp_finfo (s : State) (v : Byte) : (s.setSp v).finfo = s.finfo := rfl
@[simp] theorem State.setSp_out (s : State) (v : Byte) : (s.setSp v).out = s.out := rfl

/-! ### setMem -/

@[simp] theorem State.setMem_regs (s : State) (m : Memory) : (s.setMem m).regs = s.regs := rfl
@[simp] theorem State.setMem_reg (s : State) (m : Memory) (j : RegIdx) : (s.setMem m).reg j = s.reg j := rfl
@[simp] theorem State.setMem_sp (s : State) (m : Memory) : (s.setMem m).sp = s.sp := rfl
@[simp] theorem State.setMem_pc (s : State) (m : Memory) : (s.setMem m).pc = s.pc := rfl
@[simp] theorem State.setMem_mem (s : State) (m : Memory) : (s.setMem m).mem = m := rfl
@[simp] theorem State.setMem_run (s : State) (m : Memory) : (s.setMem m).run = s.run := rfl
@[simp] theorem State.setMem_fcause (s : State) (m : Memory) : (s.setMem m).fcause = s.fcause := rfl
@[simp] theorem State.setMem_fpc (s : State) (m : Memory) : (s.setMem m).fpc = s.fpc := rfl
@[simp] theorem State.setMem_finfo (s : State) (m : Memory) : (s.setMem m).finfo = s.finfo := rfl
@[simp] theorem State.setMem_out (s : State) (m : Memory) : (s.setMem m).out = s.out := rfl

/-! ### jump -/

@[simp] theorem State.jump_regs (s : State) (t : Byte) : (s.jump t).regs = s.regs := rfl
@[simp] theorem State.jump_reg (s : State) (t : Byte) (j : RegIdx) : (s.jump t).reg j = s.reg j := rfl
@[simp] theorem State.jump_sp (s : State) (t : Byte) : (s.jump t).sp = s.sp := rfl
@[simp] theorem State.jump_pc (s : State) (t : Byte) : (s.jump t).pc = t.setWidth 9 := rfl
@[simp] theorem State.jump_mem (s : State) (t : Byte) : (s.jump t).mem = s.mem := rfl
@[simp] theorem State.jump_run (s : State) (t : Byte) : (s.jump t).run = s.run := rfl
@[simp] theorem State.jump_fcause (s : State) (t : Byte) : (s.jump t).fcause = s.fcause := rfl
@[simp] theorem State.jump_fpc (s : State) (t : Byte) : (s.jump t).fpc = s.fpc := rfl
@[simp] theorem State.jump_finfo (s : State) (t : Byte) : (s.jump t).finfo = s.finfo := rfl
@[simp] theorem State.jump_out (s : State) (t : Byte) : (s.jump t).out = s.out := rfl

/-! ### advance -/

@[simp] theorem State.advance_regs (s : State) (n : Nat) : (s.advance n).regs = s.regs := rfl
@[simp] theorem State.advance_reg (s : State) (n : Nat) (j : RegIdx) : (s.advance n).reg j = s.reg j := rfl
@[simp] theorem State.advance_sp (s : State) (n : Nat) : (s.advance n).sp = s.sp := rfl
@[simp] theorem State.advance_pc (s : State) (n : Nat) : (s.advance n).pc = s.pc + BitVec.ofNat 9 n := rfl
@[simp] theorem State.advance_mem (s : State) (n : Nat) : (s.advance n).mem = s.mem := rfl
@[simp] theorem State.advance_run (s : State) (n : Nat) : (s.advance n).run = s.run := rfl
@[simp] theorem State.advance_fcause (s : State) (n : Nat) : (s.advance n).fcause = s.fcause := rfl
@[simp] theorem State.advance_fpc (s : State) (n : Nat) : (s.advance n).fpc = s.fpc := rfl
@[simp] theorem State.advance_finfo (s : State) (n : Nat) : (s.advance n).finfo = s.finfo := rfl
@[simp] theorem State.advance_out (s : State) (n : Nat) : (s.advance n).out = s.out := rfl

/-! ### setRun -/

@[simp] theorem State.setRun_regs (s : State) (r : RunState) : (s.setRun r).regs = s.regs := rfl
@[simp] theorem State.setRun_reg (s : State) (r : RunState) (j : RegIdx) : (s.setRun r).reg j = s.reg j := rfl
@[simp] theorem State.setRun_sp (s : State) (r : RunState) : (s.setRun r).sp = s.sp := rfl
@[simp] theorem State.setRun_pc (s : State) (r : RunState) : (s.setRun r).pc = s.pc := rfl
@[simp] theorem State.setRun_mem (s : State) (r : RunState) : (s.setRun r).mem = s.mem := rfl
@[simp] theorem State.setRun_run (s : State) (r : RunState) : (s.setRun r).run = r := rfl
@[simp] theorem State.setRun_fcause (s : State) (r : RunState) : (s.setRun r).fcause = s.fcause := rfl
@[simp] theorem State.setRun_fpc (s : State) (r : RunState) : (s.setRun r).fpc = s.fpc := rfl
@[simp] theorem State.setRun_finfo (s : State) (r : RunState) : (s.setRun r).finfo = s.finfo := rfl
@[simp] theorem State.setRun_out (s : State) (r : RunState) : (s.setRun r).out = s.out := rfl

/-! ### emit -/

@[simp] theorem State.emit_regs (s : State) (v : Byte) : (s.emit v).regs = s.regs := rfl
@[simp] theorem State.emit_reg (s : State) (v : Byte) (j : RegIdx) : (s.emit v).reg j = s.reg j := rfl
@[simp] theorem State.emit_sp (s : State) (v : Byte) : (s.emit v).sp = s.sp := rfl
@[simp] theorem State.emit_pc (s : State) (v : Byte) : (s.emit v).pc = s.pc := rfl
@[simp] theorem State.emit_mem (s : State) (v : Byte) : (s.emit v).mem = s.mem := rfl
@[simp] theorem State.emit_run (s : State) (v : Byte) : (s.emit v).run = s.run := rfl
@[simp] theorem State.emit_fcause (s : State) (v : Byte) : (s.emit v).fcause = s.fcause := rfl
@[simp] theorem State.emit_fpc (s : State) (v : Byte) : (s.emit v).fpc = s.fpc := rfl
@[simp] theorem State.emit_finfo (s : State) (v : Byte) : (s.emit v).finfo = s.finfo := rfl
@[simp] theorem State.emit_out (s : State) (v : Byte) : (s.emit v).out = s.out ++ [v] := rfl

/-! ### The register file -/

/-- A register read after a register write. -/
@[simp] theorem State.setReg_reg (s : State) (i : RegIdx) (v : Byte) (j : RegIdx) :
    (s.setReg i v).reg j = if i = j then v else s.reg j := by
  simp [State.reg, State.setReg, Vector.getElem_set, Fin.ext_iff]

/-- A register read after a write of the stack pointer. -/
@[simp] theorem State.setSp_reg (s : State) (v : Byte) (j : RegIdx) :
    (s.setSp v).reg j = if Config.spIndex = j then v else s.reg j := State.setReg_reg ..

/-- The stack pointer after a register write. -/
@[simp] theorem State.setReg_sp (s : State) (i : RegIdx) (v : Byte) :
    (s.setReg i v).sp = if i = Config.spIndex then v else s.sp := State.setReg_reg ..

/-- The stack pointer after a write of the stack pointer. -/
@[simp] theorem State.setSp_sp (s : State) (v : Byte) : (s.setSp v).sp = v := by
  simp [State.setSp]

/-- The stack pointer is register 7. -/
theorem State.reg_spIndex (s : State) : s.reg Config.spIndex = s.sp := rfl

/-! ### raise -/

@[simp] theorem raise_regs (s : State) (e : Trap) : (raise s e).regs = s.regs := rfl
@[simp] theorem raise_pc (s : State) (e : Trap) : (raise s e).pc = s.pc := rfl
@[simp] theorem raise_mem (s : State) (e : Trap) : (raise s e).mem = s.mem := rfl
@[simp] theorem raise_run (s : State) (e : Trap) : (raise s e).run = .faulted := rfl
@[simp] theorem raise_fcause (s : State) (e : Trap) : (raise s e).fcause = e.cause := rfl
@[simp] theorem raise_fpc (s : State) (e : Trap) : (raise s e).fpc = s.pc := rfl
@[simp] theorem raise_finfo (s : State) (e : Trap) : (raise s e).finfo = e.info := rfl
@[simp] theorem raise_out (s : State) (e : Trap) : (raise s e).out = s.out := rfl
@[simp] theorem raise_reg (s : State) (e : Trap) (j : RegIdx) : (raise s e).reg j = s.reg j := rfl
@[simp] theorem raise_sp (s : State) (e : Trap) : (raise s e).sp = s.sp := rfl

/-- A fault always records a cause. -/
@[simp] theorem Trap.cause_ne_noFault (e : Trap) : e.cause ≠ .noFault := by
  cases e <;> simp [Trap.cause]

end Sys2Proof.Machine
end

