-- ==== Sys2Proof/Laws/Memory.lean ====
section
/-! SUPPORT. Memory cells: read after write, and every memory operation keeps the canonical form. -/
namespace Sys2Proof.Machine

@[simp] theorem Memory.read_nil (a : Nat) : Memory.read [] a = 0 := rfl

theorem Memory.read_cons (k : Nat) (w : Byte) (m : Memory) (a : Nat) :
    Memory.read ((k, w) :: m) a = if a = k then w else Memory.read m a := rfl

/-- A cell below every listed address reads 0. -/
theorem Memory.read_eq_zero_of_lt (m : Memory) (a : Nat) (h : ∀ c ∈ m, a < c.1) : m.read a = 0 := by
  induction m with
  | nil => rfl
  | cons c m ih =>
    obtain ⟨k, w⟩ := c
    have hk : a < k := h (k, w) (by simp)
    rw [Memory.read_cons, if_neg (by omega), ih fun d hd => h d (by simp [hd])]

/-- Every address listed after a write was listed before or is the one written. -/
theorem Memory.mem_write (m : Memory) (a : Nat) (v : Byte) (c : Host.Cell) (h : c ∈ m.write a v) :
    c ∈ m ∨ (c = (a, v) ∧ v ≠ 0) := by
  induction m with
  | nil => by_cases hv : v = 0 <;> simp_all [Memory.write]
  | cons d m ih =>
    obtain ⟨k, w⟩ := d
    unfold Memory.write at h
    split_ifs at h <;> simp_all <;> tauto

/-- A write keeps the order of addresses. -/
theorem Memory.write_pairwise (m : Memory) (a : Nat) (v : Byte) (h : m.Pairwise fun c d => c.1 < d.1) :
    (m.write a v).Pairwise fun c d => c.1 < d.1 := by
  induction m with
  | nil =>
    unfold Memory.write
    split_ifs <;> simp
  | cons d m ih =>
    obtain ⟨k, w⟩ := d
    obtain ⟨hk, hm⟩ := List.pairwise_cons.mp h
    unfold Memory.write
    split_ifs with h1 h2 h3 h4
    · exact h
    · refine List.pairwise_cons.mpr ⟨fun c hc => ?_, h⟩
      obtain rfl | hc := List.mem_cons.mp hc
      · exact h1
      · exact lt_trans h1 (hk c hc)
    · exact hm
    · exact List.pairwise_cons.mpr ⟨fun c hc => h3 ▸ hk c hc, hm⟩
    · refine List.pairwise_cons.mpr ⟨fun c hc => ?_, ih hm⟩
      obtain hc | ⟨rfl, -⟩ := Memory.mem_write m a v c hc
      · exact hk c hc
      · show k < a
        omega

/-- A write inside the address space keeps the canonical form. -/
theorem Memory.write_wf (m : Memory) (a : Nat) (v : Byte) (h : m.wf) (ha : a < Config.memSize) : (m.write a v).wf := by
  refine ⟨Memory.write_pairwise m a v h.1, fun c hc => ?_⟩
  obtain hc | ⟨rfl, hv⟩ := Memory.mem_write m a v c hc
  · exact h.2 c hc
  · exact ⟨ha, hv⟩

/-- A read after a write, on memory whose addresses rise. -/
theorem Memory.read_write (m : Memory) (a : Nat) (v : Byte) (b : Nat) (h : m.Pairwise fun c d => c.1 < d.1) :
    (m.write a v).read b = if b = a then v else m.read b := by
  induction m with
  | nil =>
    unfold Memory.write
    split_ifs with hv <;> simp_all [Memory.read_cons]
  | cons d m ih =>
    obtain ⟨k, w⟩ := d
    obtain ⟨hk, hm⟩ := List.pairwise_cons.mp h
    have hz : a < k → Memory.read ((k, w) :: m) a = 0 := fun h1 =>
      Memory.read_eq_zero_of_lt _ _ fun c hc => by
        obtain rfl | hc := List.mem_cons.mp hc
        · exact h1
        · exact lt_trans h1 (hk c hc)
    rcases lt_trichotomy a k with h1 | rfl | h1
    · rw [Memory.write, if_pos h1]
      rcases eq_or_ne v 0 with rfl | hv
      · rcases eq_or_ne b a with rfl | hb
        · rw [if_pos rfl, if_pos rfl, hz h1]
        · rw [if_pos rfl, if_neg hb]
      · rw [if_neg hv, Memory.read_cons]
    · rw [Memory.write, if_neg (lt_irrefl a), if_pos rfl]
      rcases eq_or_ne v 0 with rfl | hv
      · rcases eq_or_ne b a with rfl | hb
        · rw [if_pos rfl, if_pos rfl, Memory.read_eq_zero_of_lt m b hk]
        · rw [if_pos rfl, if_neg hb, Memory.read_cons, if_neg hb]
      · rw [if_neg hv, Memory.read_cons, Memory.read_cons]
        rcases eq_or_ne b a with rfl | hb
        · rw [if_pos rfl, if_pos rfl]
        · rw [if_neg hb, if_neg hb, if_neg hb]
    · rw [Memory.write, if_neg (by omega), if_neg (by omega), Memory.read_cons, ih hm, Memory.read_cons]
      rcases eq_or_ne b k with rfl | hb
      · rw [if_pos rfl, if_pos rfl, if_neg (by omega)]
      · rw [if_neg hb, if_neg hb]

/-- A write leaves every other cell alone, on any list. -/
theorem Memory.read_write_ne (m : Memory) {a b : Nat} (v : Byte) (h : b ≠ a) : (m.write a v).read b = m.read b := by
  induction m with
  | nil =>
    unfold Memory.write
    split_ifs <;> simp [Memory.read_cons, h]
  | cons d m ih =>
    obtain ⟨k, w⟩ := d
    unfold Memory.write
    split_ifs with h1 h2 h3 h4 <;> simp_all [Memory.read_cons]

/-- A cell outside the address space of canonical memory reads 0. -/
theorem Memory.read_outside (m : Memory) (a : Nat) (h : m.wf) (ha : Config.memSize ≤ a) : m.read a = 0 := by
  obtain ⟨-, h⟩ := h
  induction m with
  | nil => rfl
  | cons d m ih =>
    obtain ⟨k, w⟩ := d
    have hk := (h (k, w) (by simp)).1
    rw [Memory.read_cons, if_neg (by omega), ih fun c hc => h c (by simp [hc])]

/-- Memory after reset is canonical. -/
theorem State.reset_mem_wf : State.reset.mem.wf := by decide

/-- Placing bytes keeps the canonical form. -/
theorem placeBytes_wf (m : Memory) (a : Nat) (bs : List Byte) (h : m.wf) : (placeBytes m a bs).wf := by
  induction bs generalizing m a with
  | nil => exact h
  | cons b bs ih =>
    unfold placeBytes
    split_ifs with ha
    · exact ih _ _ (Memory.write_wf m a b h ha)
    · exact ih _ _ h

end Sys2Proof.Machine
end

