-- ==== Sys2Proof/Laws/Ops.lean ====
section
/-! SUPPORT. What each shared operation can do, said once: bounds check, memory access, operands, stack-pointer steps,
fault entry, opcode lookup and fetch. -/
namespace Sys2Proof.Machine

/-! ### commit -/

@[simp] theorem commit_ok (s t : State) : commit s (.ok t) = .next t := rfl

@[simp] theorem commit_error (s : State) (e : Trap) : commit s (.error e) = .next (raise s e) := rfl

/-- The end of an instruction is a next state: the effect's, or fault entry from the state before it. -/
theorem commit_cases (s : State) (f : Except Trap State) :
    (∃ t, f = .ok t ∧ commit s f = .next t) ∨ ∃ e, f = .error e ∧ commit s f = .next (raise s e) := by
  cases f with
  | ok t => exact .inl ⟨t, rfl, rfl⟩
  | error e => exact .inr ⟨e, rfl, rfl⟩

/-! ### The bounds check -/

/-- An address in range passes as its byte, one out of range is refused with itself (20_memory.md R31). -/
theorem checkAddr_eq (a : Int) :
    (∃ k : Byte, a = k.toNat ∧ checkAddr a = .ok k) ∨
      ((a < 0 ∨ 255 < a) ∧ checkAddr a = .error (.outOfBounds a)) := by
  unfold checkAddr
  split_ifs with h
  · refine .inl ⟨BitVec.ofNat 8 a.toNat, ?_, rfl⟩
    rw [BitVec.toNat_ofNat, Nat.mod_eq_of_lt (by omega)]
    omega
  · exact .inr ⟨by omega, rfl⟩

theorem checkAddr_error {a : Int} (h : a < 0 ∨ 255 < a) : checkAddr a = .error (.outOfBounds a) := by
  obtain ⟨k, hk, -⟩ | ⟨-, hk⟩ := checkAddr_eq a
  · have := k.isLt
    omega
  · exact hk

/-- A byte is an address in range. -/
@[simp] theorem checkAddr_byte (k : Byte) : checkAddr (k.toNat : Int) = .ok k := by
  have := k.isLt
  unfold checkAddr
  rw [if_pos (by omega)]
  simp

/-- A natural number below 256 is an address in range. -/
theorem checkAddr_nat {n : Nat} (h : n < 256) : checkAddr (n : Int) = .ok (BitVec.ofNat 8 n) := by
  unfold checkAddr
  rw [if_pos (by omega)]
  simp

/-! ### Memory access -/

@[simp] theorem memRead_byte (s : State) (k : Byte) : memRead s (k.toNat : Int) = .ok (s.mem.read k.toNat) := by
  simp [memRead, bind, Except.bind]

@[simp] theorem memWrite_byte (s : State) (k v : Byte) :
    memWrite s (k.toNat : Int) v = .ok (s.setMem (s.mem.write k.toNat v)) := by
  simp [memWrite, bind, Except.bind]

/-! ### Operands -/

/-- A legal register operand names its register (30_encoding.md R54). -/
theorem regOperand_ok {b : Byte} (h : b.toNat < 8) : regOperand b = .ok ⟨b.toNat, h⟩ := dif_pos h

/-- An illegal one is refused with the byte. -/
theorem regOperand_error {b : Byte} (h : ¬b.toNat < 8) : regOperand b = .error (.invalidRegister b) := dif_neg h

/-! ### Stack-pointer steps (43_stack.md R90) -/

theorem spBelow_zero {sp : Byte} (h : sp = 0) : spBelow sp = .error (.outOfBounds (-1)) := by
  subst h
  decide

theorem spBelow_ok {sp : Byte} (h : sp ≠ 0) : spBelow sp = .ok (sp - 1) := by
  have h0 : sp.toNat ≠ 0 := fun h' => h (BitVec.eq_of_toNat_eq (by simpa using h'))
  have := sp.isLt
  have e : ((sp.toNat : Int) - 1) = ((sp - 1).toNat : Int) := by
    rw [BitVec.toNat_sub]
    simp
    omega
  rw [spBelow, e, checkAddr_byte]

theorem spAbove_top {sp : Byte} (h : sp = 255) : spAbove sp = .error (.outOfBounds 256) := by
  subst h
  decide

theorem spAbove_ok {sp : Byte} (h : sp ≠ 255) : spAbove sp = .ok (sp + 1) := by
  have h0 : sp.toNat ≠ 255 := fun h' => h (BitVec.eq_of_toNat_eq (by simpa using h'))
  have := sp.isLt
  have e : ((sp.toNat : Int) + 1) = ((sp + 1).toNat : Int) := by
    rw [BitVec.toNat_add]
    simp
    omega
  rw [spAbove, e, checkAddr_byte]

/-- A byte above 0 less one, as a number. -/
theorem toNat_sub_one {b : Byte} (h : b ≠ 0) : (b - 1).toNat = b.toNat - 1 := by
  have h0 : b.toNat ≠ 0 := fun h' => h (BitVec.eq_of_toNat_eq (by simpa using h'))
  have := b.isLt
  rw [BitVec.toNat_sub]
  simp
  omega

/-- A byte below 255 plus one, as a number. -/
theorem toNat_add_one {b : Byte} (h : b ≠ 255) : (b + 1).toNat = b.toNat + 1 := by
  have h0 : b.toNat ≠ 255 := fun h' => h (BitVec.eq_of_toNat_eq (by simpa using h'))
  have := b.isLt
  rw [BitVec.toNat_add]
  simp
  omega

/-- A register operand read after the stack pointer was written: only R7 sees the new value (43_stack.md R91). -/
theorem setSp_reg_operand (s : State) (v r : Byte) (h : r.toNat < 8) :
    (s.setSp v).reg ⟨r.toNat, h⟩ = if r = 7 then v else s.reg ⟨r.toNat, h⟩ := by
  have : Config.spIndex = (⟨r.toNat, h⟩ : RegIdx) ↔ r = 7 := by
    rw [Fin.ext_iff]
    constructor
    · exact fun e => BitVec.eq_of_toNat_eq (by simpa [Config.spIndex] using e.symm)
    · rintro rfl
      rfl
  simp [this]

/-! ### Opcode lookup -/

theorem Op.mem_all (p : Op) : p ∈ Op.all := by cases p <;> simp [Op.all]

/-- A selected operation has the byte as its opcode. -/
theorem byteOf_of_decodeOpcode {o : Opcodes} {b : Byte} {p : Op} (h : decodeOpcode o b = some p) : o.byteOf p = b := by
  simpa using List.find?_some h

/-- No operation is selected exactly when the byte is none of the nine. -/
theorem decodeOpcode_eq_none {o : Opcodes} {b : Byte} : decodeOpcode o b = none ↔ ∀ p, o.byteOf p ≠ b := by
  simp [decodeOpcode, List.find?_eq_none, Op.mem_all]

/-- Distinct opcode bytes tell operations apart. -/
theorem Opcodes.byteOf_inj {o : Opcodes} (h : o.Distinct) {p q : Op} (e : o.byteOf p = o.byteOf q) : p = q :=
  List.inj_on_of_nodup_map h (Op.mem_all p) (Op.mem_all q) e

/-- With distinct opcode bytes, an operation's byte selects it. -/
theorem decodeOpcode_byteOf {o : Opcodes} (h : o.Distinct) (p : Op) : decodeOpcode o (o.byteOf p) = some p := by
  cases e : decodeOpcode o (o.byteOf p) with
  | none => exact absurd rfl (decodeOpcode_eq_none.mp e p)
  | some q => rw [Opcodes.byteOf_inj h (byteOf_of_decodeOpcode e)]

/-- The default opcode bytes are distinct. -/
theorem defaultOpcodes_distinct : defaultOpcodes.Distinct := by decide

/-! ### Fetch -/

/-- A byte of the instruction is the cell at its address, when that is in range. -/
theorem fetchByte_eq (s : State) (k : Nat) :
    fetchByte s k = if s.pc.toNat + k < 256 then some (s.mem.read (s.pc.toNat + k)) else none := by
  unfold fetchByte memRead
  split_ifs with h
  · rw [← Int.natCast_add, checkAddr_nat h]
    simp [bind, Except.bind, Except.toOption, Nat.mod_eq_of_lt h]
  · rw [← Int.natCast_add, checkAddr_error (by omega)]
    rfl

/-- A step of a running core: the instruction fetched is executed, or the fault of the fetch is taken. -/
theorem cycle_running (o : Opcodes) (s : State) (h : s.run = .running) :
    cycle o s = match fetchInstr o s with
      | .ok i => exec i s
      | .error e => .next (raise s e) := by
  cases hf : fetchInstr o s <;> simp [cycle, h, hf]

/-- A core that is not running takes no step: its state stays as it is. -/
theorem cycle_not_running (o : Opcodes) (s : State) (h : s.run ≠ .running) : cycle o s = .next s := by
  unfold cycle
  split <;> first | rfl | exact absurd ‹_› h

end Sys2Proof.Machine
end

