-- ==== Sys2Proof/Laws/Meanings.lean ====
section
/-! SUPPORT. Each meaning as an equation: every way it can end, with the state it ends in. Later proofs cite these and
never unfold a meaning. -/
namespace Sys2Proof.Machine

theorem execHlt_eq (s : State) : execHlt s = .next (s.setRun .halted) := rfl

theorem execLdi_eq {r : Byte} (v : Byte) (s : State) (h : r.toNat < 8) :
    execLdi r v s = .next ((s.setReg ⟨r.toNat, h⟩ v).advance 3) := by
  rw [execLdi, regOperand_ok h]
  rfl

theorem execLdi_invalid {r : Byte} (v : Byte) (s : State) (h : ¬r.toNat < 8) :
    execLdi r v s = .next (raise s (.invalidRegister r)) := by
  rw [execLdi, regOperand_error h]
  rfl

theorem execPrn_eq {r : Byte} (s : State) (h : r.toNat < 8) :
    execPrn r s = .next ((s.emit (s.reg ⟨r.toNat, h⟩)).advance 2) := by
  rw [execPrn, regOperand_ok h]
  rfl

theorem execPrn_invalid {r : Byte} (s : State) (h : ¬r.toNat < 8) :
    execPrn r s = .next (raise s (.invalidRegister r)) := by
  rw [execPrn, regOperand_error h]
  rfl

theorem execAdd_eq {a b : Byte} (s : State) (ha : a.toNat < 8) (hb : b.toNat < 8) :
    execAdd a b s = .next ((s.setReg ⟨a.toNat, ha⟩ (BitVec.ofNat 8
      (((s.reg ⟨a.toNat, ha⟩).toNat + (s.reg ⟨b.toNat, hb⟩).toNat) % 256))).advance 3) := by
  rw [execAdd, execAluOp, regOperand_ok ha, regOperand_ok hb]
  rfl

theorem execMul_eq {a b : Byte} (s : State) (ha : a.toNat < 8) (hb : b.toNat < 8) :
    execMul a b s = .next ((s.setReg ⟨a.toNat, ha⟩ (BitVec.ofNat 8
      (((s.reg ⟨a.toNat, ha⟩).toNat * (s.reg ⟨b.toNat, hb⟩).toNat) % 256))).advance 3) := by
  rw [execMul, execAluOp, regOperand_ok ha, regOperand_ok hb]
  rfl

theorem execAluOp_invalid_first (p : Op) {a : Byte} (b : Byte) (s : State) (ha : ¬a.toNat < 8) :
    execAluOp p a b s = .next (raise s (.invalidRegister a)) := by
  rw [execAluOp, regOperand_error ha]
  rfl

theorem execAluOp_invalid_second (p : Op) {a b : Byte} (s : State) (ha : a.toNat < 8) (hb : ¬b.toNat < 8) :
    execAluOp p a b s = .next (raise s (.invalidRegister b)) := by
  rw [execAluOp, regOperand_ok ha, regOperand_error hb]
  rfl

theorem execPush_invalid {r : Byte} (s : State) (h : ¬r.toNat < 8) :
    execPush r s = .next (raise s (.invalidRegister r)) := by
  rw [execPush, regOperand_error h]
  rfl

theorem execPush_bottom {r : Byte} (s : State) (h : r.toNat < 8) (hs : s.sp = 0) :
    execPush r s = .next (raise s (.outOfBounds (-1))) := by
  rw [execPush, regOperand_ok h, spBelow_zero hs]
  rfl

theorem execPush_eq {r : Byte} (s : State) (h : r.toNat < 8) (hs : s.sp ≠ 0) :
    execPush r s = .next (((s.setSp (s.sp - 1)).setMem
      (s.mem.write (s.sp - 1).toNat ((s.setSp (s.sp - 1)).reg ⟨r.toNat, h⟩))).advance 2) := by
  rw [execPush, regOperand_ok h, spBelow_ok hs]
  simp only [bind, Except.bind, memWrite_byte, commit_ok, State.setSp_mem]

theorem execPop_invalid {r : Byte} (s : State) (h : ¬r.toNat < 8) :
    execPop r s = .next (raise s (.invalidRegister r)) := by
  rw [execPop, regOperand_error h]
  rfl

theorem execPop_top {r : Byte} (s : State) (h : r.toNat < 8) (h7 : r.toNat ≠ 7) (hs : s.sp = 255) :
    execPop r s = .next (raise s (.outOfBounds 256)) := by
  have : (⟨r.toNat, h⟩ : RegIdx) ≠ Config.spIndex := fun e => h7 (congrArg Fin.val e)
  simp [execPop, regOperand_ok h, bind, Except.bind, this, spAbove_top hs]

theorem execPop_eq {r : Byte} (s : State) (h : r.toNat < 8) (h7 : r.toNat ≠ 7) (hs : s.sp ≠ 255) :
    execPop r s = .next (((s.setReg ⟨r.toNat, h⟩ (s.mem.read s.sp.toNat)).setSp (s.sp + 1)).advance 2) := by
  have : (⟨r.toNat, h⟩ : RegIdx) ≠ Config.spIndex := fun e => h7 (congrArg Fin.val e)
  simp [execPop, regOperand_ok h, bind, Except.bind, this, spAbove_ok hs]

theorem execPop_sp_top (s : State) (hv : s.mem.read s.sp.toNat = 255) :
    execPop 7 s = .next (raise s (.outOfBounds 256)) := by
  simp [execPop, regOperand, bind, Except.bind, Config.spIndex, spAbove_top hv]

theorem execPop_sp_eq (s : State) (hv : s.mem.read s.sp.toNat ≠ 255) :
    execPop 7 s = .next ((s.setSp (s.mem.read s.sp.toNat + 1)).advance 2) := by
  simp [execPop, regOperand, bind, Except.bind, Config.spIndex, spAbove_ok hv]

theorem execCall_invalid {r : Byte} (s : State) (h : ¬r.toNat < 8) :
    execCall r s = .next (raise s (.invalidRegister r)) := by
  rw [execCall, regOperand_error h]
  rfl

theorem execCall_bottom {r : Byte} (s : State) (h : r.toNat < 8) (hs : s.sp = 0) :
    execCall r s = .next (raise s (.outOfBounds (-1))) := by
  rw [execCall, regOperand_ok h, spBelow_zero hs]
  rfl

theorem execCall_top {r : Byte} (s : State) (h : r.toNat < 8) (hs : s.sp ≠ 0) (hp : 254 ≤ s.pc.toNat) :
    execCall r s = .next (raise s (.outOfBounds ((s.pc.toNat : Int) + 2))) := by
  rw [execCall, regOperand_ok h, spBelow_ok hs, checkAddr_error (by omega)]
  rfl

theorem execCall_eq {r : Byte} (s : State) (h : r.toNat < 8) (hs : s.sp ≠ 0) (hp : s.pc.toNat < 254) :
    execCall r s = .next (((s.setSp (s.sp - 1)).setMem
      (s.mem.write (s.sp - 1).toNat (BitVec.ofNat 8 (s.pc.toNat + 2)))).jump ((s.setSp (s.sp - 1)).reg ⟨r.toNat, h⟩)) := by
  have e : ((s.pc.toNat : Int) + 2) = ((s.pc.toNat + 2 : Nat) : Int) := rfl
  rw [execCall, regOperand_ok h, spBelow_ok hs, e, checkAddr_nat (by omega)]
  simp only [bind, Except.bind, memWrite_byte, commit_ok, State.setSp_mem, State.setMem_reg]

theorem execRet_top (s : State) (hs : s.sp = 255) : execRet s = .next (raise s (.outOfBounds 256)) := by
  simp [execRet, bind, Except.bind, spAbove_top hs]

theorem execRet_eq (s : State) (hs : s.sp ≠ 255) :
    execRet s = .next ((s.setSp (s.sp + 1)).jump (s.mem.read s.sp.toNat)) := by
  simp [execRet, bind, Except.bind, spAbove_ok hs]

end Sys2Proof.Machine
end

