-- ==== Sys2Proof/Laws/PerInstr.lean ====
section
/-! SUPPORT. Facts about every instruction as syntax, one lemma per constructor. -/

/-- An instruction's encoding is its opcode byte and as many operand bytes as the table gives its operation
(30_encoding.md R50, R51), for any assignment of opcode bytes. -/
def Sys2Proof.Laws.EncodedForm.Statement (i : Sys2Proof.Instr) : Prop :=
  ∀ o : Sys2Proof.Opcodes, ∃ operands : List Sys2Proof.Byte,
    Sys2Proof.encodeWith o i = o.byteOf i.op :: operands ∧
      operands.length = Sys2Proof.operandCount i.op ∧ i.regOperands <+: operands

namespace Sys2Proof.Laws.EncodedForm

theorem hlt : Statement .hlt := fun _ => ⟨[], rfl, rfl, List.prefix_rfl⟩

theorem ldi (r v : Byte) : Statement (.ldi r v) := fun _ => ⟨[r, v], rfl, rfl, ⟨[v], rfl⟩⟩

theorem prn (r : Byte) : Statement (.prn r) := fun _ => ⟨[r], rfl, rfl, List.prefix_rfl⟩

theorem add (a b : Byte) : Statement (.add a b) := fun _ => ⟨[a, b], rfl, rfl, List.prefix_rfl⟩

theorem mul (a b : Byte) : Statement (.mul a b) := fun _ => ⟨[a, b], rfl, rfl, List.prefix_rfl⟩

theorem push (r : Byte) : Statement (.push r) := fun _ => ⟨[r], rfl, rfl, List.prefix_rfl⟩

theorem pop (r : Byte) : Statement (.pop r) := fun _ => ⟨[r], rfl, rfl, List.prefix_rfl⟩

theorem call (r : Byte) : Statement (.call r) := fun _ => ⟨[r], rfl, rfl, List.prefix_rfl⟩

theorem ret : Statement .ret := fun _ => ⟨[], rfl, rfl, List.prefix_rfl⟩

end Sys2Proof.Laws.EncodedForm
end

