-- ==== Sys2Proof/Laws/Step.lean ====
section
/-! SUPPORT. What a fetch, an execution and a step can do, each said once, for invariants and frames to be derived from. -/
namespace Sys2Proof.Machine

theorem assemble_op (p : Op) (x y : Byte) : (assemble p x y).op = p := by cases p <;> rfl

/-- The outcomes of stages 1 to 3 (40_execution_cycle.md R70 to R72). -/
theorem fetchInstr_cases (o : Opcodes) (s : State) :
    (255 < s.pc.toNat ∧ fetchInstr o s = .error (.outOfBounds s.pc.toNat)) ∨
    (s.pc.toNat ≤ 255 ∧ decodeOpcode o (s.mem.read s.pc.toNat) = none ∧
      fetchInstr o s = .error (.illegalOpcode (s.mem.read s.pc.toNat))) ∨
    ∃ p, s.pc.toNat ≤ 255 ∧ decodeOpcode o (s.mem.read s.pc.toNat) = some p ∧
      ((s.pc.toNat + operandCount p ≤ 255 ∧
          fetchInstr o s = .ok (assemble p (s.mem.read (s.pc.toNat + 1)) (s.mem.read (s.pc.toNat + 2)))) ∨
        (255 < s.pc.toNat + operandCount p ∧ fetchInstr o s = .error (.outOfBounds 256))) := by
  unfold fetchInstr decodeFrom
  by_cases h : s.pc.toNat ≤ 255
  · have h0 : fetchByte s 0 = some (s.mem.read s.pc.toNat) := by
      rw [fetchByte_eq, if_pos (by omega)]
      rfl
    rw [h0]
    cases hd : decodeOpcode o (s.mem.read s.pc.toNat) with
    | none => exact .inr (.inl ⟨h, rfl, by simp only [hd]; rfl⟩)
    | some p =>
      refine .inr (.inr ⟨p, h, rfl, ?_⟩)
      by_cases h1 : s.pc.toNat + 1 ≤ 255
      · have e1 : fetchByte s 1 = some (s.mem.read (s.pc.toNat + 1)) := by rw [fetchByte_eq, if_pos (by omega)]
        by_cases h2 : s.pc.toNat + 2 ≤ 255
        · have e2 : fetchByte s 2 = some (s.mem.read (s.pc.toNat + 2)) := by rw [fetchByte_eq, if_pos (by omega)]
          left
          cases p <;> simp [operandCount, hd, e1, e2, assemble] <;> omega
        · have e2 : fetchByte s 2 = none := by rw [fetchByte_eq, if_neg (by omega)]
          have : s.pc.toNat = 254 := by omega
          simp only [hd]
          cases p <;> simp [operandCount, e1, e2, assemble, fetchTrap, this]
      · have e1 : fetchByte s 1 = none := by rw [fetchByte_eq, if_neg (by omega)]
        have : s.pc.toNat = 255 := by omega
        simp only [hd]
        cases p <;> simp [operandCount, e1, assemble, fetchTrap, this]
  · have h0 : fetchByte s 0 = none := by rw [fetchByte_eq, if_neg (by omega)]
    rw [h0]
    exact .inl ⟨by omega, by simp [fetchTrap]⟩

/-- The faults an execution can take, and when (40_execution_cycle.md R73, stages 5 to 7). -/
inductive ExecTrap (s : State) : Instr → Trap → Prop where
  | invalidRegister (i : Instr) (b : Byte) (hb : b ∈ i.regOperands) (h : 8 ≤ b.toNat) :
      ExecTrap s i (.invalidRegister b)
  | pushBottom (r : Byte) (hs : s.sp = 0) : ExecTrap s (.push r) (.outOfBounds (-1))
  | callBottom (r : Byte) (hs : s.sp = 0) : ExecTrap s (.call r) (.outOfBounds (-1))
  | callTop (r : Byte) (hs : s.sp ≠ 0) (hp : 254 ≤ s.pc.toNat) :
      ExecTrap s (.call r) (.outOfBounds ((s.pc.toNat : Int) + 2))
  | popTop (r : Byte) (h7 : r ≠ 7) (hs : s.sp = 255) : ExecTrap s (.pop r) (.outOfBounds 256)
  | popSpTop (hv : s.mem.read s.sp.toNat = 255) : ExecTrap s (.pop 7) (.outOfBounds 256)
  | retTop (hs : s.sp = 255) : ExecTrap s .ret (.outOfBounds 256)

/-- The next states an execution can answer: fault entry, or the instruction's own effect. -/
inductive ExecEnds (s : State) : Instr → State → Prop where
  | trap (i : Instr) (e : Trap) (h : ExecTrap s i e) : ExecEnds s i (raise s e)
  | hlt : ExecEnds s .hlt (s.setRun .halted)
  | ldi (r v : Byte) (h : r.toNat < 8) : ExecEnds s (.ldi r v) ((s.setReg ⟨r.toNat, h⟩ v).advance 3)
  | prn (r : Byte) (h : r.toNat < 8) : ExecEnds s (.prn r) ((s.emit (s.reg ⟨r.toNat, h⟩)).advance 2)
  | add (a b : Byte) (ha : a.toNat < 8) (hb : b.toNat < 8) :
      ExecEnds s (.add a b) ((s.setReg ⟨a.toNat, ha⟩ (BitVec.ofNat 8
        (((s.reg ⟨a.toNat, ha⟩).toNat + (s.reg ⟨b.toNat, hb⟩).toNat) % 256))).advance 3)
  | mul (a b : Byte) (ha : a.toNat < 8) (hb : b.toNat < 8) :
      ExecEnds s (.mul a b) ((s.setReg ⟨a.toNat, ha⟩ (BitVec.ofNat 8
        (((s.reg ⟨a.toNat, ha⟩).toNat * (s.reg ⟨b.toNat, hb⟩).toNat) % 256))).advance 3)
  | push (r : Byte) (h : r.toNat < 8) (hs : s.sp ≠ 0) :
      ExecEnds s (.push r) (((s.setSp (s.sp - 1)).setMem
        (s.mem.write (s.sp - 1).toNat ((s.setSp (s.sp - 1)).reg ⟨r.toNat, h⟩))).advance 2)
  | pop (r : Byte) (h : r.toNat < 8) (h7 : r ≠ 7) (hs : s.sp ≠ 255) :
      ExecEnds s (.pop r) (((s.setReg ⟨r.toNat, h⟩ (s.mem.read s.sp.toNat)).setSp (s.sp + 1)).advance 2)
  | popSp (hv : s.mem.read s.sp.toNat ≠ 255) :
      ExecEnds s (.pop 7) ((s.setSp (s.mem.read s.sp.toNat + 1)).advance 2)
  | call (r : Byte) (h : r.toNat < 8) (hs : s.sp ≠ 0) (hp : s.pc.toNat < 254) :
      ExecEnds s (.call r) (((s.setSp (s.sp - 1)).setMem
        (s.mem.write (s.sp - 1).toNat (BitVec.ofNat 8 (s.pc.toNat + 2)))).jump ((s.setSp (s.sp - 1)).reg ⟨r.toNat, h⟩))
  | ret (hs : s.sp ≠ 255) : ExecEnds s .ret ((s.setSp (s.sp + 1)).jump (s.mem.read s.sp.toNat))

/-- A next state answered from an outcome known by an equation. -/
theorem next_of_eq {f : Host.Outcome State Fault Refusal} {s t : State} (h : f = .next s) (ht : f = .next t) : t = s := by
  rw [h] at ht
  injection ht with e
  exact e.symm

/-- Everything an execution can do. -/
theorem exec_cases {i : Instr} {s t : State} (ht : exec i s = .next t) : ExecEnds s i t := by
  have not7 : ∀ {r : Byte}, r ≠ 7 → r.toNat ≠ 7 := fun h e => h (BitVec.eq_of_toNat_eq (by simpa using e))
  cases i with
  | hlt =>
    obtain rfl := next_of_eq (execHlt_eq s) ht
    exact .hlt
  | ldi r v =>
    by_cases h : r.toNat < 8
    · obtain rfl := next_of_eq (execLdi_eq v s h) ht
      exact .ldi r v h
    · obtain rfl := next_of_eq (execLdi_invalid v s h) ht
      exact .trap _ _ (.invalidRegister _ r (by simp [Instr.regOperands]) (by omega))
  | prn r =>
    by_cases h : r.toNat < 8
    · obtain rfl := next_of_eq (execPrn_eq s h) ht
      exact .prn r h
    · obtain rfl := next_of_eq (execPrn_invalid s h) ht
      exact .trap _ _ (.invalidRegister _ r (by simp [Instr.regOperands]) (by omega))
  | add a b =>
    by_cases ha : a.toNat < 8
    · by_cases hb : b.toNat < 8
      · obtain rfl := next_of_eq (execAdd_eq s ha hb) ht
        exact .add a b ha hb
      · obtain rfl := next_of_eq (execAluOp_invalid_second .add s ha hb) ht
        exact .trap _ _ (.invalidRegister _ b (by simp [Instr.regOperands]) (by omega))
    · obtain rfl := next_of_eq (execAluOp_invalid_first .add b s ha) ht
      exact .trap _ _ (.invalidRegister _ a (by simp [Instr.regOperands]) (by omega))
  | mul a b =>
    by_cases ha : a.toNat < 8
    · by_cases hb : b.toNat < 8
      · obtain rfl := next_of_eq (execMul_eq s ha hb) ht
        exact .mul a b ha hb
      · obtain rfl := next_of_eq (execAluOp_invalid_second .mul s ha hb) ht
        exact .trap _ _ (.invalidRegister _ b (by simp [Instr.regOperands]) (by omega))
    · obtain rfl := next_of_eq (execAluOp_invalid_first .mul b s ha) ht
      exact .trap _ _ (.invalidRegister _ a (by simp [Instr.regOperands]) (by omega))
  | push r =>
    by_cases h : r.toNat < 8
    · by_cases hs : s.sp = 0
      · obtain rfl := next_of_eq (execPush_bottom s h hs) ht
        exact .trap _ _ (.pushBottom r hs)
      · obtain rfl := next_of_eq (execPush_eq s h hs) ht
        exact .push r h hs
    · obtain rfl := next_of_eq (execPush_invalid s h) ht
      exact .trap _ _ (.invalidRegister _ r (by simp [Instr.regOperands]) (by omega))
  | pop r =>
    by_cases h : r.toNat < 8
    · rcases eq_or_ne r 7 with rfl | h7
      · by_cases hv : s.mem.read s.sp.toNat = 255
        · obtain rfl := next_of_eq (execPop_sp_top s hv) ht
          exact .trap _ _ (.popSpTop hv)
        · obtain rfl := next_of_eq (execPop_sp_eq s hv) ht
          exact .popSp hv
      · by_cases hs : s.sp = 255
        · obtain rfl := next_of_eq (execPop_top s h (not7 h7) hs) ht
          exact .trap _ _ (.popTop r h7 hs)
        · obtain rfl := next_of_eq (execPop_eq s h (not7 h7) hs) ht
          exact .pop r h h7 hs
    · obtain rfl := next_of_eq (execPop_invalid s h) ht
      exact .trap _ _ (.invalidRegister _ r (by simp [Instr.regOperands]) (by omega))
  | call r =>
    by_cases h : r.toNat < 8
    · by_cases hs : s.sp = 0
      · obtain rfl := next_of_eq (execCall_bottom s h hs) ht
        exact .trap _ _ (.callBottom r hs)
      · by_cases hp : s.pc.toNat < 254
        · obtain rfl := next_of_eq (execCall_eq s h hs hp) ht
          exact .call r h hs hp
        · obtain rfl := next_of_eq (execCall_top s h hs (by omega)) ht
          exact .trap _ _ (.callTop r hs (by omega))
    · obtain rfl := next_of_eq (execCall_invalid s h) ht
      exact .trap _ _ (.invalidRegister _ r (by simp [Instr.regOperands]) (by omega))
  | ret =>
    by_cases hs : s.sp = 255
    · obtain rfl := next_of_eq (execRet_top s hs) ht
      exact .trap _ _ (.retTop hs)
    · obtain rfl := next_of_eq (execRet_eq s hs) ht
      exact .ret hs

/-- Everything a step can do: nothing when the core is not running, else the fault of the fetch or an execution. -/
theorem cycle_cases {o : Opcodes} {s t : State} (ht : cycle o s = .next t) :
    (s.run ≠ .running ∧ t = s) ∨ (s.run = .running ∧
      ((∃ e, fetchInstr o s = .error e ∧ t = raise s e) ∨ ∃ i, fetchInstr o s = .ok i ∧ exec i s = .next t)) := by
  by_cases hr : s.run = .running
  · refine .inr ⟨hr, ?_⟩
    rw [cycle_running _ _ hr] at ht
    cases hf : fetchInstr o s with
    | ok i =>
      rw [hf] at ht
      exact .inr ⟨i, rfl, ht⟩
    | error e =>
      rw [hf] at ht
      exact .inl ⟨e, rfl, next_of_eq rfl ht⟩
  · exact .inl ⟨hr, next_of_eq (cycle_not_running _ _ hr) ht⟩

end Sys2Proof.Machine
end

