-- ==== Sys2Proof/Tests/Slice0.lean ====
section
/-! SUPPORT. The model's own tests: ill-formed terms, decode words written out from 30_encoding.md, single-step vectors
of 95_test_vectors.md (V<n>), the host's ports, and a witness for each statement with hypotheses. -/
namespace Sys2Proof.Tests

open Sys2Proof Sys2Proof.Machine

/-! ### Helpers -/

/-- A running state with the given pc, stack pointer, R0, R1 and memory; R2 to R6 as at reset. -/
def mk (pc sp r0 r1 : Nat) (mem : Memory) : State :=
  { State.reset with
    run := .running
    pc := BitVec.ofNat 9 pc
    regs := #v[BitVec.ofNat 8 r0, BitVec.ofNat 8 r1, 0, 0, 0, 0, 0, BitVec.ofNat 8 sp]
    mem := mem }

/-- The next state of an outcome. -/
def nextOf : Host.Outcome State Fault Refusal → Option State
  | .next t => some t
  | .fault _ => none
  | .refused _ => none

/-- A field of the state after one step. -/
def after {α : Type} (s : State) (f : State → α) : Option α := (nextOf (step s)).map f

/-- The fault record and pc after one step. -/
def record (t : State) : RunState × FaultCause × Int × Nat × Nat := (t.run, t.fcause, t.finfo, t.fpc.toNat, t.pc.toNat)

/-! ### Well-formedness: an ill-formed term for each register operand (R54); the immediate has no illegal value (R55) -/

theorem test_wf_ldi : (Instr.ldi 8 0).wf = false ∧ (Instr.ldi 7 255).wf = true := by decide
theorem test_wf_prn : (Instr.prn 8).wf = false ∧ (Instr.prn 7).wf = true := by decide
theorem test_wf_add_first : (Instr.add 8 0).wf = false ∧ (Instr.add 7 7).wf = true := by decide
theorem test_wf_add_second : (Instr.add 0 255).wf = false := by decide
theorem test_wf_mul_first : (Instr.mul 128 0).wf = false ∧ (Instr.mul 0 7).wf = true := by decide
theorem test_wf_mul_second : (Instr.mul 0 8).wf = false := by decide
theorem test_wf_push : (Instr.push 8).wf = false ∧ (Instr.push 7).wf = true := by decide
theorem test_wf_pop : (Instr.pop 16).wf = false ∧ (Instr.pop 7).wf = true := by decide
theorem test_wf_call : (Instr.call 9).wf = false ∧ (Instr.call 7).wf = true := by decide
theorem test_wf_no_operand : Instr.hlt.wf = true ∧ Instr.ret.wf = true := by decide

/-! ### Decode words, written out bit by bit from R50 and R52 -/

theorem test_decode_hlt : decode [0b00000001] = .ok .hlt := by decide
theorem test_decode_ldi : decode [0b10000010, 0b00000011, 0b11111110] = .ok (.ldi 3 254) := by decide
theorem test_decode_prn : decode [0b01000111, 0b00000110] = .ok (.prn 6) := by decide
theorem test_decode_add : decode [0b10100000, 0b00000001, 0b00000010] = .ok (.add 1 2) := by decide
theorem test_decode_mul : decode [0b10100010, 0b00000101, 0b00000100] = .ok (.mul 5 4) := by decide
theorem test_decode_push : decode [0b01000101, 0b00000111] = .ok (.push 7) := by decide
theorem test_decode_pop : decode [0b01000110, 0b00000001] = .ok (.pop 1) := by decide
theorem test_decode_call : decode [0b01010000, 0b00000010] = .ok (.call 2) := by decide
theorem test_decode_ret : decode [0b00010001] = .ok .ret := by decide
/-- One bit away from LDI, ADD and RET (V70, V71, V74), and the zero byte (V68). -/
theorem test_decode_illegal :
    decode [0b10000011] = .error (.illegalOpcode 0x83) ∧ decode [0b10100001] = .error (.illegalOpcode 0xA1) ∧
      decode [0b00010000] = .error (.illegalOpcode 0x10) ∧ decode [0] = .error (.illegalOpcode 0) := by decide
theorem test_decode_short : decode [] = .error (.missingByte 0) ∧ decode [0x45] = .error (.missingByte 1) ∧
    decode [0x82, 9] = .error (.missingByte 2) := by decide
/-- A table word's first byte is its low byte; bits from nbits up are 0. -/
theorem test_table_words : decodeTableWord 24 0x080082 = some (.ldi 0 8) ∧ decodeTableWord 8 0x82 = some (.ldi 0 0) ∧
    decodeTableWord 16 0x0347 = some (.prn 3) ∧ decodeTableWord 8 0xFF47 = some (.prn 0) ∧
      decodeTableWord 8 0x11 = some .ret ∧ decodeTableWord 8 0 = none := by decide
/-- The placed instruction is the first to run after reset. -/
theorem test_withFetchWord : ((nextOf (step (State.reset.withFetchWord 24 0x080082))).map fun t =>
    (t.reg 0, t.pc, t.run)) = some (8, 3, .running) := by decide

/-! ### Single-step vectors of 95_test_vectors.md -/

/-- V7: the last place LDI fits; pc is left at 256. -/
theorem test_ldi_at_253 : after (mk 253 255 0 0 [(253, 0x82), (255, 7)]) (fun t => (t.reg 0, t.pc.toNat)) = some (7, 256) := by
  decide
/-- V9: the operand fetch fault comes before the register check. -/
theorem test_ldi_at_254 : after (mk 254 255 0 0 [(254, 0x82), (255, 9)]) record =
    some (.faulted, .outOfBounds, 256, 254, 254) := by decide
/-- V12: PRN R7 emits the stack pointer, unsigned. -/
theorem test_prn_sp : after (mk 0 255 0 0 [(0, 0x47), (1, 7)]) (fun t => (t.out, t.pc.toNat)) = some ([255], 2) := by decide
/-- V14: a faulting PRN emits nothing. -/
theorem test_prn_invalid : after (mk 0 255 0 0 [(0, 0x47), (1, 8)]) (fun t => (record t, t.out)) =
    some ((.faulted, .invalidRegister, 8, 0, 0), []) := by decide
/-- V18: HLT at 255 reads no operand and halts. -/
theorem test_hlt_at_255 : after (mk 255 255 0 0 [(255, 1)]) record = some (.halted, .noFault, 0, 0, 255) := by decide
/-- V22: the sum wraps. -/
theorem test_add_wraps : after (mk 6 255 255 255 [(6, 0xA0), (8, 1)]) (fun t => (t.reg 0, t.reg 1, t.pc.toNat)) =
    some (254, 255, 9) := by decide
/-- V27: explicit arithmetic on the stack pointer wraps and is no fault. -/
theorem test_add_sp : after (mk 6 255 0 1 [(6, 0xA0), (7, 7), (8, 1)]) (fun t => (t.sp, t.run)) = some (0, .running) := by decide
/-- V35: the product's low byte. -/
theorem test_mul_wraps : after (mk 6 255 200 2 [(6, 0xA2), (8, 1)]) (fun t => (t.reg 0, t.reg 1)) = some (144, 2) := by decide
/-- V42: the second register operand is checked too. -/
theorem test_mul_invalid : after (mk 6 255 0 0 [(6, 0xA2), (8, 8)]) record =
    some (.faulted, .invalidRegister, 8, 6, 6) := by decide
/-- V44: PUSH R7 stores the new stack pointer. -/
theorem test_push_sp : after (mk 6 255 0 0 [(6, 0x45), (7, 7)]) (fun t => (t.sp, t.mem.read 254, t.pc.toNat)) =
    some (254, 254, 8) := by decide
/-- V47: the register check comes before the stack check. -/
theorem test_push_invalid : after (mk 6 0 0 0 [(6, 0x45), (7, 8)]) record =
    some (.faulted, .invalidRegister, 8, 6, 6) := by decide
/-- V51: POP R7 leaves the loaded value plus 1. -/
theorem test_pop_sp : after (mk 0 250 0 0 [(0, 0x46), (1, 7), (250, 99)]) (fun t => (t.sp, t.mem.read 250)) =
    some (100, 99) := by decide
/-- V50: POP on the empty stack faults and writes nothing. -/
theorem test_pop_empty : after (mk 0 255 33 0 [(0, 0x46), (255, 77)]) (fun t => (record t, t.reg 0, t.sp)) =
    some ((.faulted, .outOfBounds, 256, 0, 0), 33, 255) := by decide
/-- V57: CALL R7 jumps to the new stack pointer. -/
theorem test_call_sp : after (mk 6 255 0 0 [(6, 0x50), (7, 7)]) (fun t => (t.sp, t.mem.read 254, t.pc.toNat)) =
    some (254, 8, 254) := by decide
/-- V60: at 254 with an empty stack pointer range the stack check comes first. -/
theorem test_call_at_254 : after (mk 254 0 0 0 [(254, 0x50)]) record = some (.faulted, .outOfBounds, -1, 254, 254) := by decide
/-- V66: RET at the last address reads no operand. -/
theorem test_ret_at_255 : after (mk 255 100 0 0 [(100, 7), (255, 0x11)]) (fun t => (t.sp, t.pc.toNat)) = some (101, 7) := by
  decide
/-- V65: RET on the empty stack. -/
theorem test_ret_empty : after (mk 16 255 0 0 [(16, 0x11)]) record = some (.faulted, .outOfBounds, 256, 16, 16) := by decide
/-- V72: an illegal byte at 255 is IllegalOpcode, not OutOfBounds. -/
theorem test_illegal_at_255 : after (mk 255 255 0 0 [(255, 255)]) record =
    some (.faulted, .illegalOpcode, 255, 255, 255) := by decide
/-- V73: the opcode fetch past the end. -/
theorem test_fetch_at_256 : after (mk 256 255 0 0 []) record = some (.faulted, .outOfBounds, 256, 256, 256) := by decide

/-! ### Memory and the host -/

theorem test_memory_form : ¬Memory.wf [(2, 1), (1, 1)] ∧ ¬Memory.wf [(1, 0)] ∧ ¬Memory.wf [(256, 1)] ∧
    Memory.wf [(1, 1), (255, 2)] := by decide
theorem test_memory_write_zero : Memory.write [(1, 1), (5, 2)] 1 0 = [(5, 2)] := by decide
/-- E1: the image literal, with commentary after it; a comment; a seven-digit token. -/
theorem test_image_lines : parseLine "10000010 # LDI R0 8".toList = .ok (some 130) ∧ parseLine "# 1".toList = .ok none ∧
    parseLine "1000001".toList = .error .malformedLiteral ∧ parseLine "10000012".toList = .error .malformedLiteral := by decide
theorem test_ports : portRunState State.reset = 0 ∧ portFaultInfo (raise State.reset (.outOfBounds (-1))) = 0x3FF ∧
    portFaultCause (raise State.reset (.invalidRegister 8)) = 3 := by decide

/-! ### Witnesses: a state and operands that meet all hypotheses of a statement together -/

/-- A running state that meets the invariant. -/
theorem mk_inv (pc sp r0 r1 : Nat) (mem : Memory) (h : mem.wf) (hp : (BitVec.ofNat 9 pc).toNat ≤ 256) :
    CoreInv (mk pc sp r0 r1 mem) :=
  ⟨h, hp, ⟨fun e => (by cases e), fun e => absurd rfl e⟩, fun e => (by cases e), ⟨rfl, rfl⟩⟩

/-- EveryStepKeepsTheInvariant, ReachableStatesMeetTheInvariant (host clause): at HLT at 255. -/
theorem witness_step_inv : ∃ s t, CoreInv s ∧ step s = .next t :=
  ⟨mk 255 255 0 0 [(255, 1)], _, mk_inv _ _ _ _ _ (by decide) (by decide), rfl⟩
/-- ReachableStatesMeetTheInvariant: a started core. -/
theorem witness_reachable : Reachable (hostApply .start State.reset) := .host _ _ .reset
/-- Every statement over distinct opcode bytes. -/
theorem witness_distinct : defaultOpcodes.Distinct := by decide
/-- DecodedBytesBeginWithTheEncoding. -/
theorem witness_decoded : decodeWith defaultOpcodes [0x46, 255, 1] = .ok (.pop 255) := by decide
/-- DecoderFollowsTheFormatTable: the clauses over operations and over illegal bytes. -/
theorem witness_format_table : Op.call ∉ [Op.hlt, Op.ret] ∧ Op.mul ∈ [Op.ldi, Op.add, Op.mul] ∧
    ∀ p ∈ Op.all, defaultOpcodes.byteOf p ≠ 0 := by decide
/-- DecodingDependsOnTheOpcodeByteAlone: the same opcode at 0 and at 255, legal and illegal. -/
theorem witness_stateless :
    ((mk 0 9 1 2 [(0, 1)]).mem.read 0 = (mk 255 255 0 0 [(255, 1)]).mem.read 255 ∧
      fetchInstr defaultOpcodes (mk 0 9 1 2 [(0, 1)]) = .ok .hlt ∧
      fetchInstr defaultOpcodes (mk 255 255 0 0 [(255, 1)]) = .ok .hlt) ∧
    (mk 0 9 1 2 [(0, 255)]).mem.read 0 = (mk 255 255 0 0 [(255, 255)]).mem.read 255 ∧
      fetchInstr defaultOpcodes (mk 0 9 1 2 [(0, 255)]) = .error (.illegalOpcode 255) := by decide
/-- OpcodeFetchAndDecode, OperandFetchReadsExactlyTheOperands: past the end, an illegal byte at 255, a legal one at 255
without and with operands, and one at 254 whose operand is the last byte. -/
theorem witness_fetch :
    ((mk 256 255 0 0 []).run = .running ∧ 255 < (mk 256 255 0 0 []).pc.toNat) ∧
    ((mk 255 255 0 0 []).pc.toNat ≤ 255 ∧ ∀ p ∈ Op.all, defaultOpcodes.byteOf p ≠ (mk 255 255 0 0 []).mem.read 255) ∧
    (defaultOpcodes.byteOf .ret = (mk 255 255 0 0 [(255, 0x11)]).mem.read 255 ∧
      (mk 255 255 0 0 [(255, 0x11)]).pc.toNat + operandCount .ret ≤ 255) ∧
    (defaultOpcodes.byteOf .prn = (mk 254 255 0 0 [(254, 0x47)]).mem.read 254 ∧
      (mk 254 255 0 0 [(254, 0x47)]).pc.toNat + operandCount .prn ≤ 255) ∧
    defaultOpcodes.byteOf .ldi = (mk 254 255 0 0 [(254, 0x82)]).mem.read 254 ∧
      255 < (mk 254 255 0 0 [(254, 0x82)]).pc.toNat + operandCount .ldi := by decide

/-- An instruction of the list at pc, checked byte by byte. -/
theorem standsAt_of (o : Opcodes) (i : Instr) (s : State)
    (h : s.pc.toNat + (encodeWith o i).length ≤ 256 ∧
      ∀ k : Fin (encodeWith o i).length, s.mem.read (s.pc.toNat + k.val) = (encodeWith o i)[k.val]) : StandsAt o i s := by
  refine ⟨h.1, fun k b hk => ?_⟩
  obtain ⟨hl, hb⟩ := List.getElem?_eq_some_iff.mp hk
  rw [← hb]
  exact h.2 ⟨k, hl⟩

/-- StepRunsTheDecodedInstruction: LDI at the last place it fits. -/
theorem witness_step_runs : (mk 253 255 0 0 [(253, 0x82), (255, 7)]).run = .running ∧
    StandsAt defaultOpcodes (.ldi 0 7) (mk 253 255 0 0 [(253, 0x82), (255, 7)]) ∧
    fetchInstr defaultOpcodes (mk 253 255 0 0 [(253, 0x82), (255, 7)]) = .ok (.ldi 0 7) :=
  ⟨rfl, standsAt_of _ _ _ (by decide), by decide⟩
/-- EveryRunningStateHasExactlyOneNextState, AStepEndsInOneOfThreeWays, OnlyPrnExtendsTheOutput, CellTwoFiftyFiveIsNeverWritten:
one step of each of the three ways. -/
theorem witness_three_ways :
    after (mk 0 255 0 0 [(0, 0x47)]) State.run = some .running ∧ after (mk 0 255 0 0 [(0, 1)]) State.run = some .halted ∧
      after (mk 0 255 0 0 []) State.run = some .faulted := by decide
/-- OnlyResetLeavesATerminalState: a halted and a faulted state, and the host's other actions. -/
theorem witness_terminal : Terminal (State.reset.setRun .halted) ∧ Terminal (raise State.reset .unsupportedAluOp) ∧
    HostEvent.start ≠ .reset ∧ HostEvent.load 0 1 ≠ .reset := ⟨.inl rfl, .inr rfl, by decide, by decide⟩
/-- FaultsArePrecise, FaultPortsCarryTheRecord: each of the three causes, from states that meet the invariant. -/
theorem witness_faults :
    (CoreInv (mk 0 255 0 0 []) ∧ after (mk 0 255 0 0 []) record = some (.faulted, .illegalOpcode, 0, 0, 0)) ∧
    (CoreInv (mk 256 255 0 0 []) ∧ after (mk 256 255 0 0 []) record = some (.faulted, .outOfBounds, 256, 256, 256)) ∧
    CoreInv (mk 0 255 0 0 [(0, 0x50), (1, 8)]) ∧
      after (mk 0 255 0 0 [(0, 0x50), (1, 8)]) record = some (.faulted, .invalidRegister, 8, 0, 0) :=
  ⟨⟨mk_inv _ _ _ _ _ (by decide) (by decide), by decide⟩, ⟨mk_inv _ _ _ _ _ (by decide) (by decide), by decide⟩,
    mk_inv _ _ _ _ _ (by decide) (by decide), by decide⟩
/-- UnsupportedAluOpIsNeverRecorded: an operation that is not the ALU's; a state that holds the cause keeps it. -/
theorem witness_alu : Op.hlt ≠ .add ∧ Op.hlt ≠ .mul ∧
    after (raise State.reset .unsupportedAluOp) State.fcause = some .unsupportedAluOp := by decide
/-- RegisterOperandsAreCheckedFirst: the first of two bad operands, the second alone, and none. -/
theorem witness_register_check :
    (Instr.add 8 255).regOperands.find? (fun c => decide (8 ≤ c.toNat)) = some 8 ∧
      (Instr.mul 7 8).regOperands.find? (fun c => decide (8 ≤ c.toNat)) = some 8 ∧
      (Instr.call 7).wf = true ∧ (mk 0 255 0 0 []).fcause ≠ .invalidRegister := by decide
/-- StackEndsFault: each clause's condition, with R0 or R7 as the operand. -/
theorem witness_stack_ends : (7 : Byte).toNat < 8 ∧ (mk 0 0 0 0 []).sp = 0 ∧ (mk 0 255 0 0 []).sp = 255 ∧ (0 : Byte) ≠ 7 ∧
    (mk 0 9 0 0 [(9, 255)]).mem.read (mk 0 9 0 0 [(9, 255)]).sp.toNat = 255 ∧
    (mk 254 1 0 0 []).sp ≠ 0 ∧ 254 ≤ (mk 254 1 0 0 []).pc.toNat := by decide
/-- HltHaltsTheRun needs nothing; LdiLoadsTheImmediateAsItStands, PrnEmitsTheRegister,
AddAddsModuloTwoHundredFiftySix, MulKeepsTheLowByteOfTheProduct: R7 and R0. -/
theorem witness_register_operand : (7 : Byte).toNat < 8 ∧ (0 : Byte).toNat < 8 := by decide
/-- PushStoresBelowTheOldTop: the last push that fits, and the first from reset. -/
theorem witness_push : (mk 6 1 9 0 []).sp ≠ 0 ∧ (mk 6 255 9 0 []).sp ≠ 0 ∧ (mk 6 1 9 0 []).mem.wf := by decide
/-- PopLoadsTheTop: both clauses, at the last pop that fits and at the largest value POP R7 takes. -/
theorem witness_pop : ((0 : Byte) ≠ 7 ∧ (mk 0 254 0 0 []).sp ≠ 255) ∧
    (mk 0 255 0 0 [(255, 254)]).mem.read (mk 0 255 0 0 [(255, 254)]).sp.toNat ≠ 255 := by decide
/-- CallPushesTheReturnAddressAndJumps: at the last address a CALL may stand, with the last free cell. -/
theorem witness_call : (mk 253 1 0 0 []).sp ≠ 0 ∧ (mk 253 1 0 0 []).pc.toNat < 254 ∧ (mk 253 1 0 0 []).mem.wf := by decide
/-- RetJumpsToTheTop: the last RET that fits. -/
theorem witness_ret : (mk 255 254 0 0 []).sp ≠ 255 := by decide
/-- RegistersReadAndWrittenAreTheTables: a register not written; one not read but written, in two runs that complete. -/
theorem witness_registers :
    ((nextOf (exec (.pop 1) (mk 0 254 0 0 []))).isSome ∧ ∀ b ∈ regsWritten (.pop 1), b.toNat ≠ (0 : RegIdx).val) ∧
    (∀ b ∈ regsRead (.pop 1), b.toNat ≠ (1 : RegIdx).val) ∧ (∃ b ∈ regsWritten (.pop 1), b.toNat = (1 : RegIdx).val) ∧
    (nextOf (exec (.pop 1) ((mk 0 254 0 0 []).setReg 1 77))).isSome ∧
    (nextOf (exec (.pop 1) (mk 0 254 0 0 []))).map State.run = some .running := by decide
/-- OnlyPushCallAndTheLoaderWriteMemory: Idle; an instruction that stores nothing; PUSH and CALL with and without a cell. -/
theorem witness_memory_writers : State.reset.run = .idle ∧ State.reset.mem.wf ∧
    (nextOf (exec .ret (mk 0 254 0 0 []))).isSome ∧
    (nextOf (exec (.push 0) (mk 0 255 0 0 []))).isSome ∧ spBelow (mk 0 255 0 0 []).sp = .ok 254 ∧
    (nextOf (exec (.call 0) (mk 0 0 0 0 []))).isSome ∧ spBelow (mk 0 0 0 0 []).sp = .error (.outOfBounds (-1)) := by decide
/-- OnlyHltAndFaultsWriteTheRunState: a next state that is no fault entry. -/
theorem witness_no_fault : ∃ t, exec .hlt (mk 0 0 0 0 []) = .next t ∧ ∀ e, t ≠ raise (mk 0 0 0 0 []) e :=
  ⟨_, rfl, fun e h => by cases congrArg State.run h⟩
/-- PcMovesByTheInstructionLength: an instruction that moves pc, HLT, and one that faults. -/
theorem witness_pc_moves : (nextOf (exec (.add 0 1) (mk 253 0 0 0 []))).map (fun t => t.pc.toNat) = some 256 ∧
    (nextOf (exec .hlt (mk 255 0 0 0 []))).map (fun t => t.pc.toNat) = some 255 ∧
    (nextOf (exec (.pop 8) (mk 3 0 0 0 []))).map (fun t => t.pc.toNat) = some 3 := by decide
/-- AWriteChangesOnlyItsCell: both ends in range, both neighbours out of range. -/
theorem witness_write : State.reset.mem.wf ∧ ((0 : Int) ≤ 0 ∧ (0 : Int) ≤ 255) ∧ ((0 : Int) ≤ 255 ∧ (255 : Int) ≤ 255) ∧
    ((-1 : Int) < 0 ∨ (255 : Int) < -1) ∧ ((256 : Int) < 0 ∨ (255 : Int) < 256) := by decide
/-- V48 on the port: the operand byte at 7 is read before the push overwrites it. -/
theorem test_bus_push : stepBus defaultOpcodes (mk 6 8 171 0 [(6, 0x45)]) =
    [.read 6 0x45, .read 7 0, .write 7 171] := by decide
/-- EachStepMakesTheTablesAccesses: a PUSH that completes. -/
theorem witness_bus : (mk 6 8 171 0 [(6, 0x45)]).run = .running ∧
    fetchInstr defaultOpcodes (mk 6 8 171 0 [(6, 0x45)]) = .ok (.push 0) ∧
    after (mk 6 8 171 0 [(6, 0x45)]) (fun t => decide (t.run ≠ .faulted)) = some true := by decide
/-- CanonicalMemoriesThatReadAlikeAreEqual. -/
theorem witness_canonical : Memory.wf [(0, 1), (255, 2)] ∧ Memory.wf (Memory.write [(0, 1)] 255 2) ∧
    ∀ a, a < 256 → Memory.read [(0, 1), (255, 2)] a = Memory.read (Memory.write [(0, 1)] 255 2) a :=
  ⟨by decide, by decide, fun _ _ => rfl⟩
/-- AStoreIsSeenByTheNextFetch: PUSH R0 at 252, the stack pointer at 255, R0 the opcode of HLT. -/
theorem witness_store_fetch : (0 : Byte).toNat < 8 ∧ (0 : Byte) ≠ 7 ∧ (mk 252 255 1 0 [(252, 0x45)]).run = .running ∧
    (mk 252 255 1 0 [(252, 0x45)]).mem.wf ∧ StandsAt defaultOpcodes (.push 0) (mk 252 255 1 0 [(252, 0x45)]) ∧
    (mk 252 255 1 0 [(252, 0x45)]).sp.toNat = (mk 252 255 1 0 [(252, 0x45)]).pc.toNat + 3 ∧
    (mk 252 255 1 0 [(252, 0x45)]).reg 0 = defaultOpcodes.hlt :=
  ⟨by decide, by decide, rfl, by decide, standsAt_of _ _ _ (by decide), by decide, by decide⟩
/-- PopAfterPushRestores: the pair at its last place, the last push that fits, R7 pushed. -/
theorem witness_push_pop : let s := mk 252 1 0 0 [(252, 0x45), (253, 7), (254, 0x46), (255, 6)]
    (7 : Byte).toNat < 8 ∧ (6 : Byte).toNat < 7 ∧ s.run = .running ∧ s.mem.wf ∧ s.pc.toNat ≤ 252 ∧ s.sp ≠ 0 ∧
    s.sp.toNat - 1 ≠ s.pc.toNat + 2 ∧ s.sp.toNat - 1 ≠ s.pc.toNat + 3 ∧
    s.mem.read s.pc.toNat = defaultOpcodes.push ∧ s.mem.read (s.pc.toNat + 1) = 7 ∧
    s.mem.read (s.pc.toNat + 2) = defaultOpcodes.pop ∧ s.mem.read (s.pc.toNat + 3) = 6 := by decide
/-- RetAfterCallReturns: a CALL at 253 and a later RET with the stack as the CALL left it. -/
theorem witness_call_ret : (6 : Byte).toNat < 7 ∧ (mk 253 255 0 0 [(253, 0x50), (254, 6)]).run = .running ∧
    (mk 253 255 0 0 [(253, 0x50), (254, 6)]).mem.wf ∧ (mk 253 255 0 0 [(253, 0x50), (254, 6)]).pc.toNat ≤ 253 ∧
    (mk 253 255 0 0 [(253, 0x50), (254, 6)]).sp ≠ 0 ∧
    StandsAt defaultOpcodes (.call 6) (mk 253 255 0 0 [(253, 0x50), (254, 6)]) ∧
    StandsAt defaultOpcodes .ret (mk 9 254 0 0 [(9, 0x11), (254, 255)]) ∧
    (mk 9 254 0 0 [(9, 0x11), (254, 255)]).sp.toNat = 255 - 1 ∧
    ((mk 9 254 0 0 [(9, 0x11), (254, 255)]).mem.read 254).toNat = 253 + 2 :=
  ⟨by decide, rfl, by decide, by decide, by decide, standsAt_of _ _ _ (by decide), standsAt_of _ _ _ (by decide),
    by decide, by decide⟩
/-- StartAndLoadActOnlyInIdle: a state of each kind. -/
theorem witness_idle : State.reset.run = .idle ∧ (mk 0 0 0 0 []).run ≠ .idle := by decide
/-- BootGivesTheLaunchState: the shortest and the longest image, and one that is too long. -/
theorem witness_boot : 1 ≤ [(1 : Byte)].length ∧ (List.replicate 256 (1 : Byte)).length ≤ 256 ∧
    256 < (List.replicate 257 (1 : Byte)).length :=
  ⟨by decide, by rw [List.length_replicate], by rw [List.length_replicate]; decide⟩
/-- CommentOnlyImageIsEmptyProgram: a comment line and blank lines. -/
theorem witness_comment_only : ∀ l ∈ splitLines "# a\n \n".toList,
    l.dropWhile isBlank = [] ∨ (l.dropWhile isBlank).head? = some '#' := by decide
/-- The spellings of 30_encoding.md section 5: the source's own line, a comma, a prefix and the alias SP; and lines that
name register 8, the value 256 or a missing operand. -/
theorem test_assembly : readAssembly "LDI R0 8".toList = some (.ldi 0 8) ∧
    readAssembly "LDI SP, 0xfE".toList = some (.ldi 7 254) ∧ readAssembly "MUL R0, R1".toList = some (.mul 0 1) ∧
    readAssembly "LDI R1 0b10000010".toList = some (.ldi 1 130) ∧ readAssembly "HLT".toList = some .hlt ∧
    readAssembly "PRN R8".toList = none ∧ readAssembly "LDI R0 256".toList = none ∧
    readAssembly "PUSH".toList = none := by decide
/-- AssemblyReadsBackTheSpelling: a form with both operands at the top of their range. -/
theorem witness_assembly : (Instr.ldi 7 255).wf = true ∧ spell (.ldi 7 255) = "LDI R7 255".toList := by decide

end Sys2Proof.Tests
end

section
/-! State frames (10_state.md): which registers an instruction writes and reads (R14), and which cells of memory it
writes (R16). -/
namespace Sys2Proof.Machine

/-! ### A register an instruction does not read -/

/-- A register read after a write of another. -/
theorem State.setReg_reg_ne (s : State) {k j : RegIdx} (v : Byte) (h : j ≠ k) : (s.setReg k v).reg j = s.reg j := by
  simp [h.symm]

/-- A register operand read after a write of a register it does not name. -/
theorem State.setReg_reg_operand (s : State) {k : RegIdx} (v : Byte) {r : Byte} (h : r.toNat < 8)
    (hk : r.toNat ≠ k.val) : (s.setReg k v).reg ⟨r.toNat, h⟩ = s.reg ⟨r.toNat, h⟩ :=
  s.setReg_reg_ne v (Fin.ne_of_val_ne hk)

/-- The stack pointer after a write of another register. -/
theorem State.setReg_sp_ne (s : State) {k : RegIdx} (v : Byte) (h : 7 ≠ k.val) : (s.setReg k v).sp = s.sp :=
  s.setReg_reg_ne v (Fin.ne_of_val_ne h)

/-- Writes of two registers commute. -/
theorem State.setReg_comm (s : State) {i k : RegIdx} (v w : Byte) (h : i ≠ k) :
    (s.setReg k v).setReg i w = (s.setReg i w).setReg k v := by
  simp only [State.setReg]
  rw [Vector.set_comm _ _ (Fin.val_ne_of_ne h.symm)]

/-- The later of two writes of one register is the one that counts. -/
theorem State.setReg_setReg (s : State) (k : RegIdx) (v w : Byte) : (s.setReg k v).setReg k w = s.setReg k w := by
  simp [State.setReg]

/-- How an instruction ends from `s` and from `s` with another value in register `k`, where it does not read `k`: both
runs take the same fault; or both complete and differ in `k` alone, which the instruction leaves; or both complete in
the same state, which is so where the instruction writes `k`. -/
inductive EndsUnseen (i : Instr) (s : State) (k : RegIdx) (v : Byte) : Prop where
  | fault (e : Trap) (hs : exec i s = .next (raise s e)) (hv : exec i (s.setReg k v) = .next (raise (s.setReg k v) e))
  | kept (t : State) (hw : ∀ b ∈ regsWritten i, b.toNat ≠ k.val) (hs : exec i s = .next t)
      (hv : exec i (s.setReg k v) = .next (t.setReg k v))
  | overwritten (t : State) (hs : exec i s = .next t) (hv : exec i (s.setReg k v) = .next t)

section
variable {s : State} {k : RegIdx} {v : Byte}

theorem EndsUnseen.hlt : EndsUnseen .hlt s k v :=
  .kept _ (by simp [regsWritten]) (execHlt_eq s) (execHlt_eq _)

theorem EndsUnseen.ldi (r x : Byte) : EndsUnseen (.ldi r x) s k v := by
  by_cases h : r.toNat < 8
  · rcases eq_or_ne (⟨r.toNat, h⟩ : RegIdx) k with rfl | hk
    · refine .overwritten _ (execLdi_eq x s h) ((execLdi_eq x _ h).trans ?_)
      rw [State.setReg_setReg]
    · refine .kept _ ?_ (execLdi_eq x s h) ((execLdi_eq x _ h).trans ?_)
      · simpa [regsWritten] using Fin.val_ne_of_ne hk
      · rw [State.setReg_comm s v x hk]
        rfl
  · exact .fault _ (execLdi_invalid x s h) (execLdi_invalid x _ h)

theorem EndsUnseen.prn {r : Byte} (hr : r.toNat ≠ k.val) : EndsUnseen (.prn r) s k v := by
  by_cases h : r.toNat < 8
  · refine .kept _ (by simp [regsWritten]) (execPrn_eq s h) ((execPrn_eq _ h).trans ?_)
    rw [State.setReg_reg_operand s v h hr]
    rfl
  · exact .fault _ (execPrn_invalid s h) (execPrn_invalid _ h)

/-- ADD and MUL: `i` is the ALU instruction of operation `p`, whose result is `f` of its two operands' values. -/
theorem EndsUnseen.alu {i : Instr} {p : Op} {a b : Byte} {f : Byte → Byte → Byte} (ha : a.toNat ≠ k.val)
    (hb : b.toNat ≠ k.val) (hi : exec i = execAluOp p a b) (hw : regsWritten i = [a])
    (hf : ∀ (s : State) (h : a.toNat < 8) (h' : b.toNat < 8), execAluOp p a b s =
      .next ((s.setReg ⟨a.toNat, h⟩ (f (s.reg ⟨a.toNat, h⟩) (s.reg ⟨b.toNat, h'⟩))).advance 3)) :
    EndsUnseen i s k v := by
  by_cases h : a.toNat < 8
  · by_cases h' : b.toNat < 8
    · refine .kept _ (by simpa [hw] using ha) (hi ▸ hf s h h') (hi ▸ (hf _ h h').trans ?_)
      rw [State.setReg_reg_operand s v h ha, State.setReg_reg_operand s v h' hb,
        State.setReg_comm s v _ (Fin.ne_of_val_ne ha)]
      rfl
    · exact .fault _ (hi ▸ execAluOp_invalid_second p s h h') (hi ▸ execAluOp_invalid_second p _ h h')
  · exact .fault _ (hi ▸ execAluOp_invalid_first p b s h) (hi ▸ execAluOp_invalid_first p b _ h)

theorem EndsUnseen.add {a b : Byte} (ha : a.toNat ≠ k.val) (hb : b.toNat ≠ k.val) : EndsUnseen (.add a b) s k v :=
  .alu (f := fun x y => BitVec.ofNat 8 ((x.toNat + y.toNat) % 256)) ha hb rfl rfl execAdd_eq

theorem EndsUnseen.mul {a b : Byte} (ha : a.toNat ≠ k.val) (hb : b.toNat ≠ k.val) : EndsUnseen (.mul a b) s k v :=
  .alu (f := fun x y => BitVec.ofNat 8 ((x.toNat * y.toNat) % 256)) ha hb rfl rfl execMul_eq

theorem EndsUnseen.push {r : Byte} (h7 : 7 ≠ k.val) (hr : r.toNat ≠ k.val) : EndsUnseen (.push r) s k v := by
  have hsp := s.setReg_sp_ne v h7
  by_cases h : r.toNat < 8
  · by_cases hs : s.sp = 0
    · exact .fault _ (execPush_bottom s h hs) (execPush_bottom _ h (hsp.trans hs))
    · refine .kept _ (by simpa [regsWritten] using h7) (execPush_eq s h hs)
        ((execPush_eq _ h (hsp.trans_ne hs)).trans ?_)
      rw [hsp, State.setSp, State.setReg_comm s v _ (Fin.ne_of_val_ne h7), State.setReg_reg_operand _ v h hr]
      rfl
  · exact .fault _ (execPush_invalid s h) (execPush_invalid _ h)

/-- POP writes its operand without reading it, so the other value is lost where `k` is the operand. -/
theorem EndsUnseen.pop {r : Byte} (h7 : 7 ≠ k.val) : EndsUnseen (.pop r) s k v := by
  have hsp := s.setReg_sp_ne v h7
  have hcomm (t : State) (w : Byte) : (t.setReg k v).setSp w = (t.setSp w).setReg k v :=
    t.setReg_comm v w (Fin.ne_of_val_ne h7)
  by_cases h : r.toNat < 8
  · rcases eq_or_ne r 7 with rfl | hr7
    · have hm : (s.setReg k v).mem.read (s.setReg k v).sp.toNat = s.mem.read s.sp.toNat := by rw [hsp]; rfl
      by_cases hv : s.mem.read s.sp.toNat = 255
      · exact .fault _ (execPop_sp_top s hv) (execPop_sp_top _ (hm.trans hv))
      · refine .kept _ (by simpa [regsWritten] using h7) (execPop_sp_eq s hv)
          ((execPop_sp_eq _ (hm.trans_ne hv)).trans ?_)
        rw [hm, hcomm]
        rfl
    · have hr7 : r.toNat ≠ 7 := fun e => hr7 (BitVec.eq_of_toNat_eq e)
      by_cases hs : s.sp = 255
      · exact .fault _ (execPop_top s h hr7 hs) (execPop_top _ h hr7 (hsp.trans hs))
      · have hu := execPop_eq (s.setReg k v) h hr7 (hsp.trans_ne hs)
        rw [hsp] at hu
        rcases eq_or_ne (⟨r.toNat, h⟩ : RegIdx) k with rfl | hk
        · refine .overwritten _ (execPop_eq s h hr7 hs) (hu.trans ?_)
          rw [State.setReg_setReg]
          rfl
        · refine .kept _ ?_ (execPop_eq s h hr7 hs) (hu.trans ?_)
          · simpa [regsWritten] using ⟨Fin.val_ne_of_ne hk, h7⟩
          · rw [State.setReg_comm s v _ hk, hcomm]
            rfl
  · exact .fault _ (execPop_invalid s h) (execPop_invalid _ h)

theorem EndsUnseen.call {r : Byte} (h7 : 7 ≠ k.val) (hr : r.toNat ≠ k.val) : EndsUnseen (.call r) s k v := by
  have hsp := s.setReg_sp_ne v h7
  by_cases h : r.toNat < 8
  · by_cases hs : s.sp = 0
    · exact .fault _ (execCall_bottom s h hs) (execCall_bottom _ h (hsp.trans hs))
    · by_cases hp : s.pc.toNat < 254
      · refine .kept _ (by simpa [regsWritten] using h7) (execCall_eq s h hs hp)
          ((execCall_eq _ h (hsp.trans_ne hs) hp).trans ?_)
        rw [hsp, State.setSp, State.setReg_comm s v _ (Fin.ne_of_val_ne h7), State.setReg_reg_operand _ v h hr]
        rfl
      · exact .fault _ (execCall_top s h hs (by omega)) (execCall_top _ h (hsp.trans_ne hs) (not_lt.mp hp))
  · exact .fault _ (execCall_invalid s h) (execCall_invalid _ h)

theorem EndsUnseen.ret (h7 : 7 ≠ k.val) : EndsUnseen .ret s k v := by
  have hsp := s.setReg_sp_ne v h7
  by_cases hs : s.sp = 255
  · exact .fault _ (execRet_top s hs) (execRet_top _ (hsp.trans hs))
  · refine .kept _ (by simpa [regsWritten] using h7) (execRet_eq s hs) ((execRet_eq _ (hsp.trans_ne hs)).trans ?_)
    rw [hsp, State.setSp, State.setReg_comm s v _ (Fin.ne_of_val_ne h7)]
    rfl

end

/-- An instruction does not see the value of a register the table does not list as read. -/
theorem exec_endsUnseen (i : Instr) (s : State) {k : RegIdx} (v : Byte) (hk : ∀ b ∈ regsRead i, b.toNat ≠ k.val) :
    EndsUnseen i s k v := by
  cases i with
  | hlt => exact .hlt
  | ldi r x => exact .ldi r x
  | prn r => exact .prn (hk r (by simp [regsRead]))
  | add a b => exact .add (hk a (by simp [regsRead])) (hk b (by simp [regsRead]))
  | mul a b => exact .mul (hk a (by simp [regsRead])) (hk b (by simp [regsRead]))
  | push r => exact .push (hk 7 (by simp [regsRead])) (hk r (by simp [regsRead]))
  | pop r => exact .pop (hk 7 (by simp [regsRead]))
  | call r => exact .call (hk 7 (by simp [regsRead])) (hk r (by simp [regsRead]))
  | ret => exact .ret (hk 7 (by simp [regsRead]))

/-! ### A register an instruction does not write -/

/-- The table's registers written are all an instruction writes: every other keeps its value. -/
theorem exec_reg_of_not_written {i : Instr} {s t : State} {k : RegIdx} (ht : exec i s = .next t)
    (hk : ∀ b ∈ regsWritten i, b.toNat ≠ k.val) : t.reg k = s.reg k := by
  have hsp (h7 : (7 : Byte).toNat ≠ k.val) : Config.spIndex ≠ k := Fin.ne_of_val_ne h7
  cases exec_cases ht with
  | trap => rfl
  | hlt => rfl
  | prn => rfl
  | ldi r v h => exact s.setReg_reg_ne v (Fin.ne_of_val_ne (hk r (by simp [regsWritten])).symm)
  | add a b ha => exact s.setReg_reg_ne _ (Fin.ne_of_val_ne (hk a (by simp [regsWritten])).symm)
  | mul a b ha => exact s.setReg_reg_ne _ (Fin.ne_of_val_ne (hk a (by simp [regsWritten])).symm)
  | push => simp [hsp (hk 7 (by simp [regsWritten]))]
  | pop r h =>
    have hr : (⟨r.toNat, h⟩ : RegIdx) ≠ k := Fin.ne_of_val_ne (hk r (by simp [regsWritten]))
    simp [hsp (hk 7 (by simp [regsWritten])), hr]
  | popSp => simp [hsp (hk 7 (by simp [regsWritten]))]
  | call => simp [hsp (hk 7 (by simp [regsWritten]))]
  | ret => simp [hsp (hk 7 (by simp [regsWritten]))]

/-- Settles O30: a completed run with another value in an unread register ends in the same state but for that register,
and in the same state throughout where the instruction writes it. -/
theorem registersReadAndWrittenAreTheTables : Obligations.RegistersReadAndWrittenAreTheTables := by
  refine ⟨fun i s t k ht hk => exec_reg_of_not_written ht hk, fun i s t u k v hk ht hu => ?_⟩
  cases exec_endsUnseen i s v hk with
  | fault e hs hv =>
    obtain rfl := next_of_eq hs ht
    obtain rfl := next_of_eq hv hu
    exact ⟨rfl, fun _ => rfl, ⟨rfl, rfl, rfl, rfl⟩, rfl, fun j hj => s.setReg_reg_ne v hj, fun _ hrun => by cases hrun⟩
  | kept t' hw hs hv =>
    obtain rfl := next_of_eq hs ht
    obtain rfl := next_of_eq hv hu
    exact ⟨rfl, fun _ => rfl, ⟨rfl, rfl, rfl, rfl⟩, rfl, fun j hj => t.setReg_reg_ne v hj,
      fun _ _ ⟨b, hb, e⟩ => absurd e (hw b hb)⟩
  | overwritten t' hs hv =>
    obtain rfl := next_of_eq hs ht
    obtain rfl := next_of_eq hv hu
    exact ⟨rfl, fun _ => rfl, ⟨rfl, rfl, rfl, rfl⟩, rfl, fun _ _ => rfl, fun _ _ _ => rfl⟩

/-! ### Memory -/

/-- All an execution can do to memory: leave it, or, for PUSH and CALL, write the cell below the stack pointer. -/
theorem exec_mem_cases {i : Instr} {s t : State} (ht : exec i s = .next t) :
    t.mem = s.mem ∨ ((∃ r, i = .push r ∨ i = .call r) ∧
      ∃ k v : Byte, spBelow s.sp = .ok k ∧ t.mem = s.mem.write k.toNat v) := by
  cases exec_cases ht with
  | push r h hs => exact .inr ⟨⟨r, .inl rfl⟩, _, _, spBelow_ok hs, rfl⟩
  | call r h hs => exact .inr ⟨⟨r, .inr rfl⟩, _, _, spBelow_ok hs, rfl⟩
  | _ => exact .inl rfl

/-- Whatever the instruction, no cell but the one below the stack pointer changes. -/
theorem exec_read_of_ne_spBelow {i : Instr} {s t : State} (ht : exec i s = .next t) {a : Nat}
    (ha : ∀ k : Byte, spBelow s.sp = .ok k → a ≠ k.toNat) : t.mem.read a = s.mem.read a := by
  obtain hm | ⟨-, k, v, hk, hm⟩ := exec_mem_cases ht
  · rw [hm]
  · rw [hm, Memory.read_write_ne _ _ (ha k hk)]

/-- The load port while Idle writes the cell it names. -/
theorem hostLoad_mem (a v : Byte) {s : State} (h : s.run = .idle) : (hostLoad a v s).mem = s.mem.write a.toNat v := by
  simp [hostLoad, h]

/-- Settles O31, from what an execution can do to memory. -/
theorem onlyPushCallAndTheLoaderWriteMemory : Obligations.OnlyPushCallAndTheLoaderWriteMemory := by
  refine ⟨Memory.read_nil, fun s a v hrun hwf => ?_, fun i s t ht hpush hcall a => ?_, fun r s t ht a ha => ?_⟩
  · rw [hostLoad_mem a v hrun]
    exact ⟨by rw [Memory.read_write _ _ _ _ hwf.1, if_pos rfl], fun c hc => Memory.read_write_ne _ _ hc⟩
  · obtain hm | ⟨⟨r, hi | hi⟩, -⟩ := exec_mem_cases ht
    · rw [hm]
    · exact absurd hi (hpush r)
    · exact absurd hi (hcall r)
  · obtain ht | ht := ht
    · exact exec_read_of_ne_spBelow ht ha
    · exact exec_read_of_ne_spBelow ht ha

end Sys2Proof.Machine
end

section
/-! Memory accesses (20_memory.md): what a read and a write do at any address (R31, R35), and the accesses of a step,
which are those of the table (R37). -/
namespace Sys2Proof.Machine

/-! ### Reads and writes at any address -/

/-- A read outside the address space is refused. -/
theorem memRead_outside (s : State) {a : Int} (h : a < 0 ∨ 255 < a) : memRead s a = .error (.outOfBounds a) := by
  rw [memRead, checkAddr_error h]
  rfl

/-- A write outside the address space is refused. -/
theorem memWrite_outside (s : State) {a : Int} (v : Byte) (h : a < 0 ∨ 255 < a) :
    memWrite s a v = .error (.outOfBounds a) := by
  rw [memWrite, checkAddr_error h]
  rfl

/-- After a write to one cell, a read at any other address answers as before, in range or refused. -/
theorem memRead_setMem_write_ne (s : State) (k v : Byte) {b : Int} (h : b ≠ k.toNat) :
    memRead (s.setMem (s.mem.write k.toNat v)) b = memRead s b := by
  obtain ⟨j, rfl, -⟩ | ⟨hout, -⟩ := checkAddr_eq b
  · have hj : j.toNat ≠ k.toNat := fun e => h (congrArg Nat.cast e)
    rw [memRead_byte, memRead_byte, State.setMem_mem, Memory.read_write_ne _ _ hj]
  · rw [memRead_outside _ hout, memRead_outside _ hout]

/-- Settles O36: an address in range is a byte, where the write is one to its cell; any other is refused. -/
theorem aWriteChangesOnlyItsCell : Obligations.AWriteChangesOnlyItsCell := by
  refine fun s a v hwf => ⟨fun ha => ?_, fun hout => ⟨memWrite_outside s v hout, memRead_outside s hout⟩⟩
  obtain ⟨k, rfl, -⟩ | ⟨hout, -⟩ := checkAddr_eq a
  · refine ⟨_, memWrite_byte s k v, Memory.write_wf _ _ _ hwf k.isLt, ?_,
      fun b hb => memRead_setMem_write_ne s k v hb, rfl⟩
    rw [memRead_byte, State.setMem_mem, Memory.read_write _ _ _ _ hwf.1, if_pos rfl]
  · omega

/-! ### The fetches of a step -/

/-- The accesses of a step that fetches an instruction: its fetches, then its data access. -/
theorem stepBus_of_fetch {o : Opcodes} {s : State} {i : Instr} (hr : s.run = .running) (hf : fetchInstr o s = .ok i) :
    stepBus o s = fetchBus o s ++ dataBus i s := by
  simp only [stepBus, hr, hf]

/-- A step whose fetch faults makes its fetches only. -/
theorem stepBus_of_fetch_error {o : Opcodes} {s : State} {e : Trap} (hr : s.run = .running)
    (hf : fetchInstr o s = .error e) : stepBus o s = fetchBus o s := by
  simp only [stepBus, hr, hf, List.append_nil]

/-- A core that is not running makes no access. -/
theorem stepBus_not_running (o : Opcodes) {s : State} (hr : s.run ≠ .running) : stepBus o s = [] := by
  cases h : s.run with
  | running => exact absurd h hr
  | _ => simp only [stepBus, h]

/-- A fetched instruction lies inside memory, and the fetch unit asks for exactly its bytes. -/
theorem fetchLength_of_fetch {o : Opcodes} {s : State} {i : Instr} (hf : fetchInstr o s = .ok i) :
    s.pc.toNat + operandCount i.op ≤ 255 ∧ fetchLength o s = 1 + operandCount i.op := by
  obtain ⟨-, he⟩ | ⟨-, -, he⟩ | ⟨p, hpc, hp, ⟨hend, hi⟩ | ⟨-, he⟩⟩ := fetchInstr_cases o s
  · cases he.symm.trans hf
  · cases he.symm.trans hf
  · obtain rfl := Except.ok.inj (hi.symm.trans hf)
    have h0 : fetchByte s 0 = some (s.mem.read s.pc.toNat) := by
      rw [fetchByte_eq, if_pos (by omega), Nat.add_zero]
    rw [assemble_op]
    exact ⟨hend, by simp only [fetchLength, h0, hp]⟩
  · cases he.symm.trans hf

/-- The fetches of an instruction are reads of as many bytes as it has, from pc upward. -/
theorem fetchBus_accesses {o : Opcodes} {s : State} {i : Instr} (hf : fetchInstr o s = .ok i) :
    (fetchBus o s).map (fun x => (x.addr, x.isWrite)) =
      (List.range (1 + operandCount i.op)).map fun k => (s.pc.toNat + k, false) := by
  obtain ⟨hend, hlen⟩ := fetchLength_of_fetch hf
  have hin : ∀ k ∈ List.range (1 + operandCount i.op), s.pc.toNat + k < Config.memSize := fun k hk => by
    have := List.mem_range.mp hk
    show s.pc.toNat + k < 256
    omega
  rw [fetchBus, hlen, List.filter_eq_self.mpr fun k hk => decide_eq_true (hin k hk), List.map_map]
  refine List.map_congr_left fun k hk => ?_
  have haddr : (BitVec.ofNat 8 (s.pc.toNat + k)).toNat = s.pc.toNat + k := Nat.mod_eq_of_lt (hin k hk)
  exact congrArg (·, false) haddr

/-- No fetch is a write. -/
theorem fetchBus_reads (o : Opcodes) (s : State) : ∀ x ∈ fetchBus o s, x.isWrite = false := by
  intro x hx
  obtain ⟨k, -, rfl⟩ := List.mem_map.mp hx
  rfl

/-! ### The data access of an instruction -/

theorem dataBus_push {r : Byte} {s : State} (h : r.toNat < 8) (hs : s.sp ≠ 0) :
    dataBus (.push r) s = [.write (s.sp - 1) ((s.setSp (s.sp - 1)).reg ⟨r.toNat, h⟩)] := by
  rw [dataBus, regOperand_ok h, spBelow_ok hs]

theorem dataBus_pop {r : Byte} {s : State} (h : r.toNat < 8) : dataBus (.pop r) s = [busRead s s.sp] := by
  rw [dataBus, regOperand_ok h]

theorem dataBus_call {r : Byte} {s : State} (h : r.toNat < 8) (hs : s.sp ≠ 0) (hp : s.pc.toNat < 254) :
    dataBus (.call r) s = [.write (s.sp - 1) (BitVec.ofNat 8 (s.pc.toNat + 2))] := by
  have hra : checkAddr ((s.pc.toNat : Int) + 2) = .ok (BitVec.ofNat 8 (s.pc.toNat + 2)) :=
    checkAddr_nat (n := s.pc.toNat + 2) (by omega)
  rw [dataBus, regOperand_ok h, spBelow_ok hs, hra]

/-- An instruction that completes makes the table's data access. -/
theorem dataBus_accesses {i : Instr} {s t : State} (ht : exec i s = .next t) (hrun : t.run ≠ .faulted) :
    (dataBus i s).map (fun x => (x.addr, x.isWrite)) = dataAccess s.sp.toNat i := by
  cases exec_cases ht with
  | trap => exact absurd rfl hrun
  | push r h hs =>
    rw [dataBus_push h hs, dataAccess, ← toNat_sub_one hs]
    rfl
  | call r h hs hp =>
    rw [dataBus_call h hs hp, dataAccess, ← toNat_sub_one hs]
    rfl
  | pop r h =>
    rw [dataBus_pop h]
    rfl
  | _ => rfl

/-- An instruction that faults makes no write: every check comes before it. -/
theorem dataBus_reads_of_trap {i : Instr} {s : State} {e : Trap} (he : ExecTrap s i e) :
    ∀ x ∈ dataBus i s, x.isWrite = false := by
  cases he with
  | invalidRegister _ b hb h =>
    have hreg : regOperand b = .error (.invalidRegister b) := regOperand_error (by omega)
    cases i with
    | push r | pop r | call r =>
      obtain rfl : b = r := by simpa [Instr.regOperands] using hb
      simp [dataBus, hreg]
    | ret => simp [dataBus, busRead, BusAccess.isWrite]
    | _ => simp [dataBus]
  | pushBottom r hs => simp [dataBus, spBelow_zero hs]
  | callBottom r hs => simp [dataBus, spBelow_zero hs]
  | callTop r hs hp => simp [dataBus, checkAddr_error (a := (s.pc.toNat : Int) + 2) (by omega)]
  | popTop r => cases hr : regOperand r <;> simp [dataBus, hr, busRead, BusAccess.isWrite]
  | popSpTop => simp [dataBus_pop, busRead, BusAccess.isWrite]
  | retTop => simp [dataBus, busRead, BusAccess.isWrite]

/-! ### Replaying the writes -/

/-- Reads put in front leave the replay of the rest as it is. -/
theorem busReplay_reads_append (m : Memory) {l : List BusAccess} (rest : List BusAccess)
    (h : ∀ x ∈ l, x.isWrite = false) : busReplay m (l ++ rest) = busReplay m rest := by
  induction l with
  | nil => rfl
  | cons x l ih =>
    obtain ⟨hx, hl⟩ := List.forall_mem_cons.mp h
    cases x with
    | read a v => exact ih hl
    | write a v => cases hx

/-- Reads leave memory as it is. -/
theorem busReplay_reads (m : Memory) {l : List BusAccess} (h : ∀ x ∈ l, x.isWrite = false) : busReplay m l = m := by
  simpa [busReplay] using busReplay_reads_append m [] h

/-- An execution's memory is the replay of its data access: the write made, or nothing where it faults. -/
theorem exec_mem_eq_busReplay {i : Instr} {s t : State} (ht : exec i s = .next t) :
    t.mem = busReplay s.mem (dataBus i s) := by
  cases exec_cases ht with
  | trap _ e he => exact (busReplay_reads _ (dataBus_reads_of_trap he)).symm
  | push r h hs =>
    rw [dataBus_push h hs]
    rfl
  | call r h hs hp =>
    rw [dataBus_call h hs hp]
    rfl
  | pop r h =>
    rw [dataBus_pop h]
    rfl
  | _ => rfl

/-- A step's memory is the replay of its accesses. -/
theorem cycle_mem_eq_busReplay {o : Opcodes} {s t : State} (ht : cycle o s = .next t) :
    t.mem = busReplay s.mem (stepBus o s) := by
  obtain ⟨hr, rfl⟩ | ⟨hr, ⟨e, hf, rfl⟩ | ⟨i, hf, hx⟩⟩ := cycle_cases ht
  · rw [stepBus_not_running o hr]
    rfl
  · rw [stepBus_of_fetch_error hr hf, busReplay_reads _ (fetchBus_reads o s), raise_mem]
  · rw [stepBus_of_fetch hr hf, busReplay_reads_append _ _ (fetchBus_reads o s), exec_mem_eq_busReplay hx]

/-- Settles O37: the fetches, then the data access of the execution; and the replay of both. -/
theorem eachStepMakesTheTablesAccesses : Obligations.EachStepMakesTheTablesAccesses := by
  refine ⟨fun o s t i hr hf ht hrun => ?_, fun o s t => cycle_mem_eq_busReplay⟩
  have hx : exec i s = .next t := by
    rw [cycle_running o s hr, hf] at ht
    exact ht
  rw [stepBus_of_fetch hr hf, List.map_append, fetchBus_accesses hf, dataBus_accesses hx hrun]

end Sys2Proof.Machine
end

section
/-! Encoding (30_encoding.md): the decoder by the number of operands (R50, R51), what the byte at pc selects (R57), and
LDI's immediate (R55). -/
namespace Sys2Proof.Machine

/-! ### The decoder, by the number of operands -/

section
variable {o : Opcodes}

/-- A byte that is no opcode is refused at once: no byte after it is looked at. -/
theorem decodeWith_illegalOpcode {b : Byte} (rest : List Byte) (hb : ∀ p, o.byteOf p ≠ b) :
    decodeWith o (b :: rest) = .error (.illegalOpcode b) := by
  have hd : decodeOpcode o b = none := decodeOpcode_eq_none.mpr hb
  simp [decodeWith, decodeFrom, hd]

theorem decodeWith_no_operand (ho : o.Distinct) (p : Op) (rest : List Byte) (hp : operandCount p = 0) :
    decodeWith o (o.byteOf p :: rest) = .ok (assemble p 0 0) := by
  simp [decodeWith, decodeFrom, decodeOpcode_byteOf ho, hp]

theorem decodeWith_one_operand (ho : o.Distinct) (p : Op) (x : Byte) (rest : List Byte) (hp : operandCount p = 1) :
    decodeWith o (o.byteOf p :: x :: rest) = .ok (assemble p x 0) := by
  simp [decodeWith, decodeFrom, decodeOpcode_byteOf ho, hp]

theorem decodeWith_two_operands (ho : o.Distinct) (p : Op) (x y : Byte) (rest : List Byte) (hp : operandCount p = 2) :
    decodeWith o (o.byteOf p :: x :: y :: rest) = .ok (assemble p x y) := by
  simp [decodeWith, decodeFrom, decodeOpcode_byteOf ho, hp]

/-- An operation with operands, and no byte after its opcode. -/
theorem decodeWith_missing_first (ho : o.Distinct) (p : Op) (hp : operandCount p ≠ 0) :
    decodeWith o [o.byteOf p] = .error (.missingByte 1) := by
  simp only [decodeWith, decodeFrom, List.getElem?_cons_zero, decodeOpcode_byteOf ho]
  split
  · exact absurd ‹_› hp
  · rfl
  · rfl

/-- An operation with two operands, and one byte after its opcode. -/
theorem decodeWith_missing_second (ho : o.Distinct) (p : Op) (x : Byte) (hp : operandCount p = 2) :
    decodeWith o [o.byteOf p, x] = .error (.missingByte 2) := by
  simp [decodeWith, decodeFrom, decodeOpcode_byteOf ho, hp]

end

/-- HLT and RET alone have no operand (30_encoding.md R51). -/
theorem operandCount_eq_zero_iff (p : Op) : operandCount p = 0 ↔ p ∈ [Op.hlt, Op.ret] := by
  cases p <;> decide

/-- LDI, ADD and MUL alone have two (30_encoding.md R51). -/
theorem operandCount_eq_two_iff (p : Op) : operandCount p = 2 ↔ p ∈ [Op.ldi, Op.add, Op.mul] := by
  cases p <;> decide

/-- Settles O7: each row of the table is the decoder's rule for its number of operands. -/
theorem decoderFollowsTheFormatTable : Obligations.DecoderFollowsTheFormatTable := by
  intro o ho x y rest
  exact ⟨decodeWith_no_operand ho .hlt rest rfl, decodeWith_no_operand ho .ret rest rfl,
    decodeWith_one_operand ho .prn x rest rfl, decodeWith_one_operand ho .push x rest rfl,
    decodeWith_one_operand ho .pop x rest rfl, decodeWith_one_operand ho .call x rest rfl,
    decodeWith_two_operands ho .ldi x y rest rfl, decodeWith_two_operands ho .add x y rest rfl,
    decodeWith_two_operands ho .mul x y rest rfl,
    fun p hp => decodeWith_missing_first ho p (mt (operandCount_eq_zero_iff p).mp hp),
    fun p hp => decodeWith_missing_second ho p x ((operandCount_eq_two_iff p).mpr hp),
    fun _ => decodeWith_illegalOpcode rest⟩

/-! ### The byte at pc selects -/

/-- A fetched instruction is one of the operation that the byte at pc selects. -/
theorem decodeOpcode_of_fetch {o : Opcodes} {s : State} {i : Instr} (hf : fetchInstr o s = .ok i) :
    decodeOpcode o (s.mem.read s.pc.toNat) = some i.op := by
  obtain ⟨-, he⟩ | ⟨-, -, he⟩ | ⟨p, -, hp, ⟨-, hi⟩ | ⟨-, he⟩⟩ := fetchInstr_cases o s
  · cases he.symm.trans hf
  · cases he.symm.trans hf
  · obtain rfl := Except.ok.inj (hi.symm.trans hf)
    rw [assemble_op, hp]
  · cases he.symm.trans hf

/-- A fetch inside memory is refused as an illegal opcode exactly when the byte at pc selects no operation. -/
theorem fetchInstr_illegalOpcode_iff {o : Opcodes} {s : State} (hpc : s.pc.toNat ≤ 255) (b : Byte) :
    fetchInstr o s = .error (.illegalOpcode b) ↔ s.mem.read s.pc.toNat = b ∧ decodeOpcode o b = none := by
  obtain ⟨hout, -⟩ | ⟨-, hd, hf⟩ | ⟨p, -, hd, ⟨-, hf⟩ | ⟨-, hf⟩⟩ := fetchInstr_cases o s
  · omega
  · rw [hf]
    constructor
    · rintro ⟨⟩
      exact ⟨rfl, hd⟩
    · rintro ⟨rfl, -⟩
      rfl
  all_goals
    rw [hf]
    constructor
    · rintro ⟨⟩
    · rintro ⟨rfl, hn⟩
      cases hd.symm.trans hn

/-- Settles O9: the operation fetched, and the refusal as illegal, are each told by the byte at pc. -/
theorem decodingDependsOnTheOpcodeByteAlone : Obligations.DecodingDependsOnTheOpcodeByteAlone := by
  refine fun o s u hs hu hread => ⟨fun i j hi hj => ?_, fun b hb => ?_⟩
  · have hop : some i.op = some j.op := by
      rw [← decodeOpcode_of_fetch hi, hread, decodeOpcode_of_fetch hj]
    exact Option.some.inj hop
  · rw [fetchInstr_illegalOpcode_iff hu, ← hread]
    exact (fetchInstr_illegalOpcode_iff hs b).mp hb

/-! ### The immediate -/

/-- Settles O22: LDI is one register write and the move of pc. -/
theorem ldiLoadsTheImmediateAsItStands : Obligations.LdiLoadsTheImmediateAsItStands := by
  refine fun r v s h => ⟨_, execLdi_eq v s h, fun i => ?_, rfl, fun _ => rfl, ⟨rfl, rfl, rfl, rfl⟩, rfl⟩
  rw [State.advance_reg, State.setReg_reg]
  exact if_congr (Fin.ext_iff.trans eq_comm) rfl rfl

end Sys2Proof.Machine
end

section
/-! The execution cycle (40_execution_cycle.md): the opcode fetch and what each byte selects (R71, 30_encoding.md R56),
and the one next state of every running state (R79). -/
namespace Sys2Proof.Machine

/-! ### The bytes that are no opcode -/

section
variable {o : Opcodes}

/-- A byte selects an operation exactly when it is one of the nine. -/
theorem decodeOpcode_isSome_iff {b : Byte} : (decodeOpcode o b).isSome ↔ b ∈ Op.all.map o.byteOf := by
  rw [Option.isSome_iff_ne_none, Ne, decodeOpcode_eq_none]
  simp [Op.mem_all]

/-- The legal bytes among 0..255 are the nine of the assignment, each once. -/
theorem legalBytes_perm (ho : o.Distinct) :
    ((List.range 256).filter fun n => (decodeOpcode o (BitVec.ofNat 8 n)).isSome).Perm
      ((Op.all.map o.byteOf).map BitVec.toNat) := by
  have hnodup : ((Op.all.map o.byteOf).map BitVec.toNat).Nodup := ho.map fun _ _ => BitVec.eq_of_toNat_eq
  rw [List.perm_ext_iff_of_nodup (List.nodup_range.filter _) hnodup]
  intro n
  rw [List.mem_filter, List.mem_range, decodeOpcode_isSome_iff, List.mem_map (f := BitVec.toNat)]
  constructor
  · rintro ⟨hn, hb⟩
    exact ⟨_, hb, Nat.mod_eq_of_lt hn⟩
  · rintro ⟨b, hb, rfl⟩
    exact ⟨b.isLt, by rwa [BitVec.ofNat_toNat, BitVec.setWidth_eq]⟩

/-- Of the 256 bytes, all but the nine are illegal. -/
theorem illegalBytes_length (ho : o.Distinct) :
    ((List.range 256).filter fun n => (decodeOpcode o (BitVec.ofNat 8 n)).isNone).length = 247 := by
  have hlegal := (legalBytes_perm ho).length_eq
  have hsplit := List.length_eq_length_filter_add (l := List.range 256)
    fun n => (decodeOpcode o (BitVec.ofNat 8 n)).isSome
  simp only [Option.not_isSome] at hsplit
  simp only [List.length_map, List.length_range, Op.all, List.length_cons, List.length_nil] at hlegal hsplit
  omega

/-! ### The opcode fetch -/

variable {s : State}

/-- A running core whose fetch faults takes that fault. -/
theorem cycle_of_fetch_error {e : Trap} (hr : s.run = .running) (hf : fetchInstr o s = .error e) :
    cycle o s = .next (raise s e) := by
  rw [cycle_running o s hr, hf]

/-- Past the end of memory the fetch faults with pc. -/
theorem fetchInstr_past_end (hpc : 255 < s.pc.toNat) : fetchInstr o s = .error (.outOfBounds s.pc.toNat) := by
  obtain ⟨-, hf⟩ | ⟨hle, -⟩ | ⟨q, hle, -⟩ := fetchInstr_cases o s
  · exact hf
  · omega
  · omega

/-- Where the byte at pc selects an operation, the fetch can only fail for an address: an operand past the end. -/
theorem fetchInstr_error_of_legal {p : Op} {e : Trap} (hd : decodeOpcode o (s.mem.read s.pc.toNat) = some p)
    (hf : fetchInstr o s = .error e) : ∃ a, e = .outOfBounds a := by
  obtain ⟨-, he⟩ | ⟨-, hn, -⟩ | ⟨q, -, -, ⟨-, hi⟩ | ⟨-, he⟩⟩ := fetchInstr_cases o s
  · exact ⟨_, Except.error.inj (hf.symm.trans he)⟩
  · cases hd.symm.trans hn
  · cases hf.symm.trans hi
  · exact ⟨_, Except.error.inj (hf.symm.trans he)⟩

end

/-- Settles O10: the nine bytes counted, then the fetch past the end, at an illegal byte and at a legal one. -/
theorem opcodeFetchAndDecode : Obligations.OpcodeFetchAndDecode := by
  refine fun o ho => ⟨illegalBytes_length ho, fun s hr => ⟨fun hpc => ?_, fun hpc hb => ?_, fun _ p hp => ?_⟩⟩
  · exact cycle_of_fetch_error hr (fetchInstr_past_end hpc)
  · exact cycle_of_fetch_error hr ((fetchInstr_illegalOpcode_iff hpc _).mpr ⟨rfl, decodeOpcode_eq_none.mpr hb⟩)
  · have hd : decodeOpcode o (s.mem.read s.pc.toNat) = some p := hp ▸ decodeOpcode_byteOf ho p
    exact ⟨fun i hf => Option.some.inj ((decodeOpcode_of_fetch hf).symm.trans hd),
      fun e => fetchInstr_error_of_legal hd⟩

/-! ### The next state -/

/-- The end of an instruction is a next state, whatever its effect. -/
theorem commit_exists_next (s : State) (f : Except Trap State) : ∃ t, commit s f = .next t := by
  obtain ⟨t, -, h⟩ | ⟨e, -, h⟩ := commit_cases s f
  · exact ⟨t, h⟩
  · exact ⟨raise s e, h⟩

/-- Every meaning ends in `commit`, so every execution gives a next state. -/
theorem exec_exists_next (i : Instr) (s : State) : ∃ t, exec i s = .next t := by
  cases i with
  | hlt => exact commit_exists_next s (.ok _)
  | _ => exact commit_exists_next s _

/-- A step gives a next state: the execution's, the fault entry of the fetch, or the state itself where the core is not
running. -/
theorem cycle_exists_next (o : Opcodes) (s : State) : ∃ t, cycle o s = .next t := by
  by_cases hr : s.run = .running
  · cases hf : fetchInstr o s with
    | ok i =>
      rw [cycle_running o s hr, hf]
      exact exec_exists_next i s
    | error e => exact ⟨raise s e, cycle_of_fetch_error hr hf⟩
  · exact ⟨s, cycle_not_running o s hr⟩

/-- Settles O13: a step gives a next state, and an outcome holds no second one. -/
theorem everyRunningStateHasExactlyOneNextState : Obligations.EveryRunningStateHasExactlyOneNextState := by
  refine ⟨fun s _ => ?_, exec_exists_next⟩
  obtain ⟨t, ht⟩ := cycle_exists_next defaultOpcodes s
  exact ⟨t, ht, fun _ hu => next_of_eq ht hu⟩

end Sys2Proof.Machine
end

section
/-! Register operands (60_exceptions.md R104): the first operand byte that names no register decides the fault, and an
execution records InvalidRegister for no other reason. -/
namespace Sys2Proof.Machine

/-! ### The first operand byte that names no register -/

/-- The first of the bytes that names no register (R104). -/
def firstInvalidRegister (bs : List Byte) : Option Byte := bs.find? fun c => decide (8 ≤ c.toNat)

/-- The first byte of a list is tested first, and the rest only when it names a register. -/
theorem firstInvalidRegister_cons_eq_some_iff {a b : Byte} {bs : List Byte} :
    firstInvalidRegister (a :: bs) = some b ↔
      (¬a.toNat < 8 ∧ a = b) ∨ (a.toNat < 8 ∧ firstInvalidRegister bs = some b) := by
  by_cases ha : a.toNat < 8
  · simp [firstInvalidRegister, List.find?_cons_of_neg, ha]
  · simp [firstInvalidRegister, List.find?_cons_of_pos, ha, Nat.not_lt.mp ha]

/-- Where the instruction has one register operand, it is that one. -/
theorem firstInvalidRegister_singleton_eq_some_iff {r b : Byte} :
    firstInvalidRegister [r] = some b ↔ ¬r.toNat < 8 ∧ r = b := by
  rw [firstInvalidRegister_cons_eq_some_iff]
  exact or_iff_left fun ⟨_, hnil⟩ => nomatch hnil

/-! ### The check before any effect -/

/-- ADD and MUL raise InvalidRegister with the first of their two operands that names no register. -/
theorem execAluOp_firstInvalidRegister (p : Op) {a b c : Byte} (s : State) (hc : firstInvalidRegister [a, b] = some c) :
    execAluOp p a b s = .next (raise s (.invalidRegister c)) := by
  rw [firstInvalidRegister_cons_eq_some_iff, firstInvalidRegister_singleton_eq_some_iff] at hc
  obtain ⟨ha, rfl⟩ | ⟨ha, hb, rfl⟩ := hc
  · exact execAluOp_invalid_first p b s ha
  · exact execAluOp_invalid_second p s ha hb

/-- Every instruction raises InvalidRegister with the first of its register operands that names no register. -/
theorem exec_firstInvalidRegister (i : Instr) (s : State) {b : Byte} (hb : firstInvalidRegister i.regOperands = some b) :
    exec i s = .next (raise s (.invalidRegister b)) := by
  cases i with
  | hlt | ret => cases hb
  | add x y | mul x y => exact execAluOp_firstInvalidRegister _ s hb
  | ldi r v =>
    obtain ⟨hr, rfl⟩ := firstInvalidRegister_singleton_eq_some_iff.mp hb
    exact execLdi_invalid v s hr
  | prn r =>
    obtain ⟨hr, rfl⟩ := firstInvalidRegister_singleton_eq_some_iff.mp hb
    exact execPrn_invalid s hr
  | push r =>
    obtain ⟨hr, rfl⟩ := firstInvalidRegister_singleton_eq_some_iff.mp hb
    exact execPush_invalid s hr
  | pop r =>
    obtain ⟨hr, rfl⟩ := firstInvalidRegister_singleton_eq_some_iff.mp hb
    exact execPop_invalid s hr
  | call r =>
    obtain ⟨hr, rfl⟩ := firstInvalidRegister_singleton_eq_some_iff.mp hb
    exact execCall_invalid s hr

/-! ### The record with legal operands -/

/-- An execution takes a fault it can take, or leaves the recorded cause as it was. -/
theorem exec_fcause_cases {i : Instr} {s t : State} (ht : exec i s = .next t) :
    (∃ e, ExecTrap s i e ∧ t = raise s e) ∨ t.fcause = s.fcause := by
  cases exec_cases ht with
  | trap i e he => exact .inl ⟨e, he, rfl⟩
  | _ => exact .inr rfl

/-- With every register operand in 0..7, no fault an execution can take has the cause InvalidRegister. -/
theorem ExecTrap.cause_ne_invalidRegister {s : State} {i : Instr} {e : Trap} (he : ExecTrap s i e) (hwf : i.wf = true) :
    e.cause ≠ .invalidRegister := by
  cases he with
  | invalidRegister i b hb h =>
    have hok : b.toNat < 8 := of_decide_eq_true (List.all_eq_true.mp hwf b hb)
    omega
  | _ => simp [Trap.cause]

/-- Settles O19: the first operand that names no register decides the fault, and with none such the fault is another or
the record stays. -/
theorem registerOperandsAreCheckedFirst : Obligations.RegisterOperandsAreCheckedFirst := by
  refine fun i s => ⟨fun b hb => exec_firstInvalidRegister i s hb, fun hwf t ht hs => ?_⟩
  obtain ⟨e, he, rfl⟩ | hkept := exec_fcause_cases ht
  · exact he.cause_ne_invalidRegister hwf
  · rwa [hkept]

end Sys2Proof.Machine
end

section
/-! The ends of a step and the invariant: the three ways a step can end (40_execution_cycle.md R70), the faults it can
take (60_exceptions.md R100), and the invariant kept by every step and by the host (10_state.md, 70_reset_and_hazards.md
R123). -/
namespace Sys2Proof.Machine

/-! ### What an execution does to the run state, the record and pc -/

/-- An execution takes a fault it can take, or is HLT, or leaves the run state and the record as they are. -/
theorem exec_control_cases {i : Instr} {s t : State} (ht : exec i s = .next t) :
    (∃ e, ExecTrap s i e ∧ t = raise s e) ∨ (i = .hlt ∧ t = s.setRun .halted) ∨
      (i ≠ .hlt ∧ SameControl s t) := by
  cases exec_cases ht with
  | trap i e he => exact .inl ⟨e, he, rfl⟩
  | hlt => exact .inr (.inl ⟨rfl, rfl⟩)
  | _ => exact .inr (.inr ⟨nofun, rfl, rfl, rfl, rfl⟩)

/-- An execution leaves pc (HLT or a fault), moves it past the instruction, or sets it to a byte (CALL and RET). -/
theorem exec_pc_cases {i : Instr} {s t : State} (ht : exec i s = .next t) :
    (t.pc = s.pc ∧ (i = .hlt ∨ ∃ e, t = raise s e)) ∨
    (i ≠ .hlt ∧ t.pc = s.pc + BitVec.ofNat 9 (1 + operandCount i.op)) ∨
    (((∃ r, i = .call r) ∨ i = .ret) ∧ ∃ b : Byte, t.pc = b.setWidth 9) := by
  cases exec_cases ht with
  | trap i e he => exact .inl ⟨rfl, .inr ⟨e, rfl⟩⟩
  | hlt => exact .inl ⟨rfl, .inl rfl⟩
  | call r => exact .inr (.inr ⟨.inl ⟨r, rfl⟩, _, rfl⟩)
  | ret => exact .inr (.inr ⟨.inr rfl, _, rfl⟩)
  | _ => exact .inr (.inl ⟨nofun, rfl⟩)

/-! ### The ends of a step -/

/-- A running core that fetches an instruction executes it. -/
theorem cycle_of_fetch {o : Opcodes} {s : State} {i : Instr} (hr : s.run = .running) (hf : fetchInstr o s = .ok i) :
    cycle o s = exec i s := by
  rw [cycle_running o s hr, hf]

/-- The faults a step can take: the address of OutOfBounds is -1 or 256 wherever pc is in its range (60_exceptions.md
R102). -/
inductive StepTrap (s : State) : Trap → Prop where
  | illegalOpcode : StepTrap s (.illegalOpcode (s.mem.read s.pc.toNat))
  | outOfBounds (a : Int) (ha : s.pc.toNat ≤ 256 → a = -1 ∨ a = 256) : StepTrap s (.outOfBounds a)
  | invalidRegister (b : Byte) (hb : 8 ≤ b.toNat) : StepTrap s (.invalidRegister b)

/-- The fault of a failed fetch is one a step can take. -/
theorem stepTrap_of_fetch {o : Opcodes} {s : State} {e : Trap} (hf : fetchInstr o s = .error e) : StepTrap s e := by
  obtain ⟨hpc, he⟩ | ⟨-, -, he⟩ | ⟨p, -, -, ⟨-, hi⟩ | ⟨-, he⟩⟩ := fetchInstr_cases o s
  · obtain rfl := Except.error.inj (hf.symm.trans he)
    exact .outOfBounds _ fun _ => by omega
  · obtain rfl := Except.error.inj (hf.symm.trans he)
    exact .illegalOpcode
  · cases hf.symm.trans hi
  · obtain rfl := Except.error.inj (hf.symm.trans he)
    exact .outOfBounds _ fun _ => .inr rfl

/-- So is the fault of a fetched instruction: a CALL that was fetched stands at 254 at most. -/
theorem ExecTrap.stepTrap {s : State} {i : Instr} {e : Trap} (he : ExecTrap s i e)
    (hend : s.pc.toNat + operandCount i.op ≤ 255) : StepTrap s e := by
  cases he with
  | invalidRegister _ b _ hb => exact .invalidRegister b hb
  | pushBottom => exact .outOfBounds _ fun _ => .inl rfl
  | callBottom => exact .outOfBounds _ fun _ => .inl rfl
  | callTop r _ hp =>
    have hend : s.pc.toNat + 1 ≤ 255 := hend
    exact .outOfBounds _ fun _ => by omega
  | _ => exact .outOfBounds _ fun _ => .inr rfl

/-- The states a step of a running core can end in: fault entry, halted by HLT, or running on (R70). -/
inductive CycleEnds (o : Opcodes) (s : State) : State → Prop where
  | fault (e : Trap) (he : StepTrap s e) : CycleEnds o s (raise s e)
  | halt (hf : fetchInstr o s = .ok .hlt) : CycleEnds o s (s.setRun .halted)
  | goesOn (i : Instr) (t : State) (hf : fetchInstr o s = .ok i) (hi : i ≠ .hlt) (hx : exec i s = .next t)
      (hc : SameControl s t) : CycleEnds o s t

/-- Everything a step of a running core can end in. -/
theorem cycle_ends {o : Opcodes} {s t : State} (hr : s.run = .running) (ht : cycle o s = .next t) :
    CycleEnds o s t := by
  obtain ⟨hn, -⟩ | ⟨-, ⟨e, hf, rfl⟩ | ⟨i, hf, hx⟩⟩ := cycle_cases ht
  · exact absurd hr hn
  · exact .fault e (stepTrap_of_fetch hf)
  · obtain ⟨e, he, rfl⟩ | ⟨rfl, rfl⟩ | ⟨hi, hc⟩ := exec_control_cases hx
    · exact .fault e (he.stepTrap (fetchLength_of_fetch hf).1)
    · exact .halt hf
    · exact .goesOn i t hf hi hx hc

/-! ### The invariant -/

/-- Settles O2: memory lists nothing, and nothing is recorded. -/
theorem resetMeetsTheInvariant : Obligations.ResetMeetsTheInvariant :=
  ⟨State.reset_mem_wf, Nat.zero_le _, ⟨nofun, fun h => absurd rfl h⟩, nofun, rfl, rfl⟩

/-- Fault entry keeps the invariant for every fault a step can take. -/
theorem CoreInv.raise {s : State} (hs : CoreInv s) {e : Trap} (he : StepTrap s e) : CoreInv (raise s e) := by
  refine ⟨hs.mem, hs.pc, ⟨fun _ => Trap.cause_ne_noFault e, fun _ => rfl⟩, fun _ => rfl, ?_⟩
  cases he with
  | illegalOpcode =>
    have hb := (s.mem.read s.pc.toNat).isLt
    exact ⟨Int.natCast_nonneg _, Int.ofNat_le.mpr (Nat.le_of_lt_succ hb)⟩
  | outOfBounds a ha => exact ha hs.pc
  | invalidRegister b hb => exact ⟨Int.ofNat_le.mpr hb, Int.ofNat_le.mpr (Nat.le_of_lt_succ b.isLt)⟩

/-- The fault record is the same. -/
def SameRecord (s t : State) : Prop := t.fcause = s.fcause ∧ t.fpc = s.fpc ∧ t.finfo = s.finfo

/-- The invariant is kept where no fault is taken: the record stays, and memory and pc stay in their form. -/
theorem CoreInv.of_sameRecord {s t : State} (hs : CoreInv s) (hsr : s.run ≠ .faulted) (htr : t.run ≠ .faulted)
    (hrec : SameRecord s t) (hmem : t.mem.wf) (hpc : t.pc.toNat ≤ 256) : CoreInv t := by
  obtain ⟨hcause, hfpc, hinfo⟩ := hrec
  refine ⟨hmem, hpc, ⟨fun h => absurd h htr, fun h => ?_⟩, fun h => absurd h htr, ?_⟩
  · rw [hcause] at h
    exact absurd (hs.faulted.mpr h) hsr
  · have hdatum := hs.datum
    unfold DatumOk at hdatum ⊢
    rwa [hcause, hfpc, hinfo]

/-- An execution keeps memory canonical: the cell below the stack pointer is in the address space. -/
theorem exec_mem_wf {i : Instr} {s t : State} (ht : exec i s = .next t) (hs : s.mem.wf) : t.mem.wf := by
  obtain hm | ⟨-, k, v, -, hm⟩ := exec_mem_cases ht
  · rwa [hm]
  · rw [hm]
    exact Memory.write_wf _ _ _ hs k.isLt

/-- An instruction that lies inside memory leaves pc in 0..256. -/
theorem exec_pc_le {i : Instr} {s t : State} (ht : exec i s = .next t) (hend : s.pc.toNat + operandCount i.op ≤ 255) :
    t.pc.toNat ≤ 256 := by
  obtain ⟨hpc, -⟩ | ⟨-, hpc⟩ | ⟨-, b, hpc⟩ := exec_pc_cases ht
  · rw [hpc]
    omega
  · rw [hpc, BitVec.toNat_add, BitVec.toNat_ofNat]
    omega
  · have := b.isLt
    rw [hpc, BitVec.toNat_setWidth]
    omega

/-- A step keeps the invariant, whatever the opcode bytes are. -/
theorem cycle_inv {o : Opcodes} {s t : State} (hs : CoreInv s) (ht : cycle o s = .next t) : CoreInv t := by
  by_cases hr : s.run = .running
  · have hsr : s.run ≠ .faulted := hr ▸ nofun
    cases cycle_ends hr ht with
    | fault e he => exact hs.raise he
    | halt hf => exact hs.of_sameRecord hsr nofun ⟨rfl, rfl, rfl⟩ hs.mem hs.pc
    | goesOn i _ hf _ hx hc =>
      obtain ⟨hrun, hrec⟩ := hc
      exact hs.of_sameRecord hsr (hrun ▸ hsr) hrec (exec_mem_wf hx hs.mem)
        (exec_pc_le hx (fetchLength_of_fetch hf).1)
  · rwa [next_of_eq (cycle_not_running o s hr) ht]

/-- Settles O3: a step is a cycle with the default opcode bytes. -/
theorem everyStepKeepsTheInvariant : Obligations.EveryStepKeepsTheInvariant :=
  ⟨fun _ _ hs ht => cycle_inv hs ht, fun _ _ _ hs ht => cycle_inv hs ht⟩

/-! ### The host -/

theorem hostLoad_idle (a v : Byte) {s : State} (h : s.run = .idle) :
    hostLoad a v s = s.setMem (s.mem.write a.toNat v) := if_pos h

theorem hostLoad_not_idle (a v : Byte) {s : State} (h : s.run ≠ .idle) : hostLoad a v s = s := if_neg h

theorem hostStart_idle {s : State} (h : s.run = .idle) : hostStart s = s.setRun .running := if_pos h

theorem hostStart_not_idle {s : State} (h : s.run ≠ .idle) : hostStart s = s := if_neg h

/-- The load port keeps the invariant. -/
theorem hostLoad_inv (a v : Byte) {s : State} (hs : CoreInv s) : CoreInv (hostLoad a v s) := by
  by_cases h : s.run = .idle
  · have hsr : s.run ≠ .faulted := h ▸ nofun
    rw [hostLoad_idle a v h]
    exact hs.of_sameRecord hsr hsr ⟨rfl, rfl, rfl⟩ (Memory.write_wf _ _ _ hs.mem a.isLt) hs.pc
  · rwa [hostLoad_not_idle a v h]

/-- The start event keeps the invariant. -/
theorem hostStart_inv {s : State} (hs : CoreInv s) : CoreInv (hostStart s) := by
  by_cases h : s.run = .idle
  · rw [hostStart_idle h]
    exact hs.of_sameRecord (h ▸ nofun) nofun ⟨rfl, rfl, rfl⟩ hs.mem hs.pc
  · rwa [hostStart_not_idle h]

/-- Every action of the host keeps the invariant. -/
theorem hostApply_inv (e : HostEvent) {s : State} (hs : CoreInv s) : CoreInv (hostApply e s) := by
  cases e with
  | reset => exact resetMeetsTheInvariant
  | load a v => exact hostLoad_inv a v hs
  | start => exact hostStart_inv hs

/-- Settles O4, by induction on how the state was reached. -/
theorem reachableStatesMeetTheInvariant : Obligations.ReachableStatesMeetTheInvariant := by
  refine ⟨fun e s => hostApply_inv e, fun s hreach => ?_⟩
  induction hreach with
  | reset => exact resetMeetsTheInvariant
  | host e s _ ih => exact hostApply_inv e ih
  | step s t _ ht ih => exact cycle_inv ih ht

/-! ### The end of a step and of a run -/

/-- A running core that meets the invariant has no fault recorded. -/
theorem CoreInv.fcause_of_running {s : State} (hs : CoreInv s) (hr : s.run = .running) : s.fcause = .noFault := by
  by_contra hne
  have hf := hs.faulted.mpr hne
  rw [hr] at hf
  cases hf

/-- Settles O14: one way for each end of a step. -/
theorem aStepEndsInOneOfThreeWays : Obligations.AStepEndsInOneOfThreeWays := by
  intro o s t hr ht
  cases cycle_ends hr ht with
  | fault e he => exact ⟨.inr (.inr ⟨rfl, e, rfl⟩), nofun⟩
  | halt hf => exact ⟨.inr (.inl ⟨rfl, hf, rfl⟩), fun hs _ => ⟨rfl, hs.fcause_of_running hr⟩⟩
  | goesOn i _ hf hi _ hc =>
    have hrun : t.run = .running := hc.1.trans hr
    refine ⟨.inl ⟨hrun, hc, i, hi, hf⟩, fun _ hh => ?_⟩
    cases hrun.symm.trans hh

/-- A step that faults is fault entry for a fault it can take. -/
theorem cycle_faulted {o : Opcodes} {s t : State} (hr : s.run = .running) (ht : cycle o s = .next t)
    (hfault : t.run = .faulted) : ∃ e, StepTrap s e ∧ t = raise s e := by
  cases cycle_ends hr ht with
  | fault e he => exact ⟨e, he, rfl⟩
  | halt => cases hfault
  | goesOn _ _ _ _ _ hc => cases hr.symm.trans (hc.1.symm.trans hfault)

/-- Settles O16: fault entry writes nothing else. -/
theorem faultsArePrecise : Obligations.FaultsArePrecise := by
  intro o s t hr ht hfault
  obtain ⟨e, -, rfl⟩ := cycle_faulted hr ht hfault
  exact ⟨fun _ => rfl, fun _ => rfl, rfl, rfl, rfl, Trap.cause_ne_noFault e⟩

/-- Settles O18: a fault that a step takes has another cause, and no other step writes the record. -/
theorem unsupportedAluOpIsNeverRecorded : Obligations.UnsupportedAluOpIsNeverRecorded := by
  refine ⟨fun p x y hadd hmul => ?_, fun o s t ht hcause => ?_⟩
  · cases p with
    | add => exact absurd rfl hadd
    | mul => exact absurd rfl hmul
    | _ => rfl
  · by_cases hr : s.run = .running
    · cases cycle_ends hr ht with
      | fault e he => cases he <;> cases hcause
      | halt => exact hcause
      | goesOn _ _ _ _ _ hc => exact hc.2.1.symm.trans hcause
    · rwa [next_of_eq (cycle_not_running o s hr) ht] at hcause

/-- A core that is not running stays as it is, step after step. -/
theorem steps_not_running {s : State} (hr : s.run ≠ .running) (k : Nat) : steps k s = .next s := by
  induction k with
  | zero => rfl
  | succ k ih =>
    rw [steps, step, cycle_not_running _ s hr]
    exact ih

/-- Settles O15: a terminal state is neither running, where a step acts, nor idle, where load and start act. -/
theorem onlyResetLeavesATerminalState : Obligations.OnlyResetLeavesATerminalState := by
  intro s hterm
  have hr : s.run ≠ .running := by obtain h | h := hterm <;> exact h ▸ nofun
  have hi : s.run ≠ .idle := by obtain h | h := hterm <;> exact h ▸ nofun
  refine ⟨steps_not_running hr, fun e he => ?_⟩
  cases e with
  | reset => exact absurd rfl he
  | load a v => exact hostLoad_not_idle a v hi
  | start => exact hostStart_not_idle hi

/-! ### The observation ports -/

/-- Ten bits hold the datum of every fault a step can take. -/
theorem portFaultInfo_toInt {s : State} (hs : DatumOk s) : (portFaultInfo s).toInt = s.finfo := by
  have hrange : -1 ≤ s.finfo ∧ s.finfo ≤ 256 := by
    unfold DatumOk at hs
    split at hs
    case h_5 => exact hs.elim
    all_goals omega
  rw [portFaultInfo, BitVec.toInt_ofInt]
  exact Int.bmod_eq_of_le (by omega) (by omega)

/-- Settles O17: the record is that of fault entry, one clause for each cause a step can record. -/
theorem faultPortsCarryTheRecord : Obligations.FaultPortsCarryTheRecord := by
  intro s t hs hr ht hfault
  obtain ⟨e, he, rfl⟩ := cycle_faulted hr ht hfault
  refine ⟨rfl, rfl, portFaultInfo_toInt (hs.raise he).datum, ?_⟩
  cases he with
  | illegalOpcode => exact .inl ⟨rfl, _, rfl, rfl⟩
  | outOfBounds a ha => exact .inr (.inl ⟨rfl, ha hs.pc⟩)
  | invalidRegister b hb => exact .inr (.inr ⟨rfl, b, rfl, hb⟩)

end Sys2Proof.Machine
end

section
/-! Encoding and decoding agree, in both directions (30_encoding.md R50), and the fetch reads exactly the bytes of the
instruction (40_execution_cycle.md R72). -/
namespace Sys2Proof.Machine

/-! ### Instructions as an operation and its operands -/

/-- Every instruction is its operation with two operand bytes, of which it uses as many as it has. -/
theorem exists_assemble (i : Instr) : ∃ x y, i = assemble i.op x y := by
  cases i with
  | hlt | ret => exact ⟨0, 0, rfl⟩
  | ldi x y | add x y | mul x y => exact ⟨x, y, rfl⟩
  | prn x | push x | pop x | call x => exact ⟨x, 0, rfl⟩

/-- The encoding of an operation is its opcode byte, then as many of the operand bytes as the table gives it. -/
theorem encodeWith_assemble (o : Opcodes) (p : Op) (x y : Byte) :
    encodeWith o (assemble p x y) = o.byteOf p :: [x, y].take (operandCount p) := by
  cases p <;> rfl

/-- An operation without operands is the same instruction whatever the operand bytes. -/
theorem assemble_no_operand {p : Op} (hp : operandCount p = 0) (x y x' y' : Byte) :
    assemble p x y = assemble p x' y' := by
  cases p with
  | hlt | ret => rfl
  | _ => cases hp

/-- An operation with one operand is the same instruction whatever the second operand byte. -/
theorem assemble_one_operand {p : Op} (hp : operandCount p = 1) (x y y' : Byte) :
    assemble p x y = assemble p x y' := by
  cases p with
  | prn | push | pop | call => rfl
  | _ => cases hp

/-- No operation has more than two operands. -/
theorem operandCount_cases (p : Op) : operandCount p = 0 ∨ operandCount p = 1 ∨ operandCount p = 2 := by
  cases p <;> decide

/-! ### Decode after encode -/

/-- Decoding an encoding, whatever follows it, gives the instruction back. -/
theorem decodeWith_encodeWith_append {o : Opcodes} (ho : o.Distinct) (i : Instr) (rest : List Byte) :
    decodeWith o (encodeWith o i ++ rest) = .ok i := by
  obtain ⟨x, y, hi⟩ := exists_assemble i
  generalize i.op = p at hi
  rw [hi, encodeWith_assemble]
  obtain hp | hp | hp := operandCount_cases p
  · rw [hp]
    exact (decodeWith_no_operand ho p rest hp).trans (congrArg _ (assemble_no_operand hp ..))
  · rw [hp]
    exact (decodeWith_one_operand ho p x rest hp).trans (congrArg _ (assemble_one_operand hp ..))
  · rw [hp]
    exact decodeWith_two_operands ho p x y rest hp

/-- The same with the default opcode bytes. -/
theorem decode_encode_append (i : Instr) (rest : List Byte) : decode (encode i ++ rest) = .ok i :=
  decodeWith_encodeWith_append defaultOpcodes_distinct i rest

/-- Settles O5: the encoding alone is the case in which nothing follows. -/
theorem decodeOfEncodeIsTheInstruction : Obligations.DecodeOfEncodeIsTheInstruction := by
  refine ⟨fun o ho i rest => decodeWith_encodeWith_append ho i rest, fun i => ?_⟩
  simpa using decode_encode_append i []

/-- Settles O8: each legal word is the encoding of its instruction, and the two others are no opcode. -/
theorem defaultOpcodeWordsDecode : Obligations.DefaultOpcodeWordsDecode := by
  have hword (i : Instr) : decode (encode i) = .ok i := decodeOfEncodeIsTheInstruction.2 i
  have hillegal (b : Byte) (hb : decodeOpcode defaultOpcodes b = none) : decode [b] = .error (.illegalOpcode b) :=
    decodeWith_illegalOpcode [] (decodeOpcode_eq_none.mp hb)
  exact ⟨hword .hlt, hword (.ldi 0 8), hword (.prn 7), hword (.add 0 1), hword (.mul 4 4), hword (.push 2),
    hword (.pop 1), hword (.call 3), hword .ret, hillegal 0 (by decide), hillegal 131 (by decide)⟩

/-! ### Encode after decode -/

/-- Bytes that decode begin with the opcode byte of the instruction's operation and its operand bytes. -/
theorem decodeWith_eq_ok {o : Opcodes} {bs : List Byte} {i : Instr} (h : decodeWith o bs = .ok i) :
    ∃ p x y rest, i = assemble p x y ∧ bs = o.byteOf p :: ([x, y].take (operandCount p) ++ rest) := by
  cases bs with
  | nil => cases h
  | cons b bs =>
    simp only [decodeWith, decodeFrom, List.getElem?_cons_zero] at h
    cases hd : decodeOpcode o b with
    | none =>
      rw [hd] at h
      cases h
    | some p =>
      obtain rfl := byteOf_of_decodeOpcode hd
      rw [hd] at h
      obtain hp | hp | hp := operandCount_cases p
      · simp only [hp] at h ⊢
        exact ⟨p, 0, 0, bs, (Except.ok.inj h).symm, by rw [hp]; rfl⟩
      · simp only [hp] at h
        cases bs with
        | nil => cases h
        | cons x bs => exact ⟨p, x, 0, bs, (Except.ok.inj h).symm, by rw [hp]; rfl⟩
      · simp only [hp] at h
        match bs, h with
        | [], h => cases h
        | [x], h => cases h
        | x :: y :: bs, h => exact ⟨p, x, y, bs, (Except.ok.inj h).symm, by rw [hp]; rfl⟩

/-- Settles O6: what decoding reads is what encoding writes. -/
theorem decodedBytesBeginWithTheEncoding : Obligations.DecodedBytesBeginWithTheEncoding := by
  intro o bs i h
  obtain ⟨p, x, y, rest, rfl, rfl⟩ := decodeWith_eq_ok h
  rw [encodeWith_assemble]
  exact ⟨rest, rfl⟩

/-! ### The fetch -/

section
variable {o : Opcodes} {s : State} {p : Op}

/-- An instruction whose bytes lie inside memory is fetched with the bytes after its opcode as its operands. -/
theorem fetchInstr_inside (hd : decodeOpcode o (s.mem.read s.pc.toNat) = some p)
    (hend : s.pc.toNat + operandCount p ≤ 255) :
    fetchInstr o s = .ok (assemble p (s.mem.read (s.pc.toNat + 1)) (s.mem.read (s.pc.toNat + 2))) := by
  obtain ⟨hout, -⟩ | ⟨-, hn, -⟩ | ⟨q, -, hq, ⟨-, hf⟩ | ⟨hlong, -⟩⟩ := fetchInstr_cases o s
  · omega
  · cases hd.symm.trans hn
  · obtain rfl := Option.some.inj (hd.symm.trans hq)
    exact hf
  · obtain rfl := Option.some.inj (hd.symm.trans hq)
    omega

/-- One that does not fit faults at address 256. -/
theorem fetchInstr_crosses_end (hd : decodeOpcode o (s.mem.read s.pc.toNat) = some p) (hpc : s.pc.toNat ≤ 255)
    (hend : 255 < s.pc.toNat + operandCount p) : fetchInstr o s = .error (.outOfBounds 256) := by
  obtain ⟨hout, -⟩ | ⟨-, hn, -⟩ | ⟨q, -, hq, ⟨hshort, -⟩ | ⟨-, hf⟩⟩ := fetchInstr_cases o s
  · omega
  · cases hd.symm.trans hn
  · obtain rfl := Option.some.inj (hd.symm.trans hq)
    omega
  · exact hf

end

/-- Settles O11: the fetch inside memory, and the fetch that crosses its end. -/
theorem operandFetchReadsExactlyTheOperands : Obligations.OperandFetchReadsExactlyTheOperands := by
  intro o ho s p hr hpc hread
  have hd : decodeOpcode o (s.mem.read s.pc.toNat) = some p := hread ▸ decodeOpcode_byteOf ho p
  exact ⟨fun hend => cycle_of_fetch hr (fetchInstr_inside hd hend),
    fun hend => cycle_of_fetch_error hr (fetchInstr_crosses_end hd hpc hend)⟩

/-- An instruction whose encoding stands at pc is the one fetched. -/
theorem StandsAt.fetchInstr {o : Opcodes} (ho : o.Distinct) {i : Instr} {s : State} (h : StandsAt o i s) :
    fetchInstr o s = .ok i := by
  obtain ⟨hlen, hbytes⟩ := h
  obtain ⟨x, y, hi⟩ := exists_assemble i
  generalize i.op = p at hi
  subst hi
  rw [encodeWith_assemble] at hlen hbytes
  have hread : s.mem.read s.pc.toNat = o.byteOf p := hbytes 0 _ rfl
  have hd : decodeOpcode o (s.mem.read s.pc.toNat) = some p := hread ▸ decodeOpcode_byteOf ho p
  obtain hp | hp | hp := operandCount_cases p
  · rw [hp] at hlen
    rw [fetchInstr_inside hd (by rw [hp]; exact Nat.le_of_lt_succ hlen), assemble_no_operand hp]
  · rw [hp] at hlen hbytes
    rw [fetchInstr_inside hd (by rw [hp]; exact Nat.le_of_lt_succ hlen), hbytes 1 x rfl, assemble_one_operand hp]
  · rw [hp] at hlen hbytes
    rw [fetchInstr_inside hd (by rw [hp]; exact Nat.le_of_lt_succ hlen), hbytes 1 x rfl, hbytes 2 y rfl]

/-- Where an instruction stands at pc and the core runs, the step is its execution. -/
theorem StandsAt.cycle {o : Opcodes} (ho : o.Distinct) {i : Instr} {s : State} (hr : s.run = .running)
    (h : StandsAt o i s) : cycle o s = exec i s :=
  cycle_of_fetch hr (h.fetchInstr ho)

/-- Settles O12: the fetch gives the instruction that stands at pc, and the step executes what was fetched. -/
theorem stepRunsTheDecodedInstruction : Obligations.StepRunsTheDecodedInstruction :=
  ⟨fun _ _ hr h => h.cycle defaultOpcodes_distinct hr, fun _ ho _ _ hr h => h.cycle ho hr,
    fun _ _ hr hf => cycle_of_fetch hr hf⟩

end Sys2Proof.Machine
end

section
/-! What each instruction does (41_hlt_ldi_prn.md, 42_alu.md, 43_stack.md, 44_call_ret.md): result, completion and
frame, read off the equations of its meaning; and the faults at the ends of the stack. -/
namespace Sys2Proof.Machine

/-! ### Bytes as register operands -/

/-- A register operand byte other than 7 is not the number of the stack pointer. -/
theorem toNat_ne_seven {r : Byte} (h : r ≠ 7) : r.toNat ≠ 7 := fun e => h (BitVec.eq_of_toNat_eq e)

/-- A register other than R7 keeps its value when the stack pointer is written. -/
theorem State.setSp_reg_ne (s : State) (v : Byte) {i : RegIdx} (h : i ≠ 7) : (s.setSp v).reg i = s.reg i :=
  s.setReg_reg_ne v h

/-! ### Basic and ALU -/

/-- Settles O21: HLT writes the run state alone. -/
theorem hltHaltsTheRun : Obligations.HltHaltsTheRun :=
  fun s => ⟨_, execHlt_eq s, rfl, rfl, fun _ => rfl, fun _ => rfl, rfl, rfl, rfl, rfl⟩

/-- Settles O23: PRN appends to the output and moves pc. -/
theorem prnEmitsTheRegister : Obligations.PrnEmitsTheRegister :=
  fun _ h s => ⟨_, execPrn_eq s h, rfl, rfl, fun _ => rfl, fun _ => rfl, rfl, rfl, rfl, rfl⟩

/-- Settles O24: of two bytes the sum modulo 256 is the sum, less 256 where it does not fit. -/
theorem addAddsModuloTwoHundredFiftySix : Obligations.AddAddsModuloTwoHundredFiftySix := by
  intro a b ha hb s
  refine ⟨_, execAdd_eq s ha hb, ?_, fun i hi => s.setReg_reg_ne _ (Fin.ne_of_val_ne hi), rfl, fun _ => rfl,
    ⟨rfl, rfl, rfl, rfl⟩, rfl⟩
  have hx := (s.reg ⟨a.toNat, ha⟩).isLt
  have hy := (s.reg ⟨b.toNat, hb⟩).isLt
  rw [State.advance_reg, State.setReg_reg, if_pos rfl, BitVec.toNat_ofNat, Nat.mod_mod]
  split <;> omega

/-- Settles O25: the product modulo 256 is its low byte. -/
theorem mulKeepsTheLowByteOfTheProduct : Obligations.MulKeepsTheLowByteOfTheProduct := by
  intro a b ha hb s
  refine ⟨_, execMul_eq s ha hb, ?_, fun i hi => s.setReg_reg_ne _ (Fin.ne_of_val_ne hi), rfl, fun _ => rfl,
    ⟨rfl, rfl, rfl, rfl⟩, rfl⟩
  rw [State.advance_reg, State.setReg_reg, if_pos rfl, BitVec.toNat_ofNat, Nat.mod_mod]

/-! ### The stack -/

/-- The new stack pointer of a push, as a byte. -/
theorem sub_one_eq_ofNat {b : Byte} (h : b ≠ 0) : b - 1 = BitVec.ofNat 8 (b.toNat - 1) := by
  rw [← toNat_sub_one h, BitVec.ofNat_toNat, BitVec.setWidth_eq]

/-- Settles O26: the stack pointer is stepped, then the register is read and stored there. -/
theorem pushStoresBelowTheOldTop : Obligations.PushStoresBelowTheOldTop := by
  intro r h s hs hwf
  have hcell : (s.sp - 1).toNat = s.sp.toNat - 1 := toNat_sub_one hs
  refine ⟨_, execPush_eq s h hs, ?_, ?_, fun a ha => ?_, fun i hi => s.setSp_reg_ne _ hi, rfl,
    ⟨rfl, rfl, rfl, rfl⟩, rfl⟩
  · simp only [State.advance_sp, State.setMem_sp, State.setSp_sp, hcell]
  · rw [State.advance_mem, State.setMem_mem, hcell, Memory.read_write _ _ _ _ hwf.1, if_pos rfl, setSp_reg_operand,
      sub_one_eq_ofNat hs]
  · rw [State.advance_mem, State.setMem_mem, hcell, Memory.read_write_ne _ _ ha]

/-- Settles O27: the two clauses are the two meanings of POP, by whether its operand is the stack pointer. -/
theorem popLoadsTheTop : Obligations.PopLoadsTheTop := by
  refine ⟨fun r h s h7 hs => ?_, fun s hv => ?_⟩
  · have hr7 : Config.spIndex ≠ (⟨r.toNat, h⟩ : RegIdx) := Fin.ne_of_val_ne (toNat_ne_seven h7).symm
    refine ⟨_, execPop_eq s h (toNat_ne_seven h7) hs, ?_, ?_, fun i hi hir => ?_, rfl, fun _ => rfl,
      ⟨rfl, rfl, rfl, rfl⟩, rfl⟩
    · simp [hr7]
    · simp only [State.advance_sp, State.setSp_sp, toNat_add_one hs]
    · rw [State.advance_reg, State.setSp_reg_ne _ _ hi, State.setReg_reg_ne _ _ (Fin.ne_of_val_ne hir)]
  · refine ⟨_, execPop_sp_eq s hv, ?_, fun i hi => s.setSp_reg_ne _ hi, rfl, fun _ => rfl,
      ⟨rfl, rfl, rfl, rfl⟩, rfl⟩
    simp only [State.advance_sp, State.setSp_sp, toNat_add_one hv]

/-! ### Transfer -/

/-- A jump sets pc to the target's number. -/
theorem State.jump_pc_toNat (s : State) (t : Byte) : (s.jump t).pc.toNat = t.toNat := by
  have := t.isLt
  rw [State.jump_pc, BitVec.toNat_setWidth]
  omega

/-- Settles O28: as for PUSH, with the return address stored and the register read for pc. -/
theorem callPushesTheReturnAddressAndJumps : Obligations.CallPushesTheReturnAddressAndJumps := by
  intro r h s hs hp hwf
  have hcell : (s.sp - 1).toNat = s.sp.toNat - 1 := toNat_sub_one hs
  refine ⟨_, execCall_eq s h hs hp, ?_, ?_, fun a ha => ?_, ?_, fun i hi => s.setSp_reg_ne _ hi,
    ⟨rfl, rfl, rfl, rfl⟩, rfl⟩
  · simp only [State.jump_sp, State.setMem_sp, State.setSp_sp, hcell]
  · rw [State.jump_mem, State.setMem_mem, hcell, Memory.read_write _ _ _ _ hwf.1, if_pos rfl, BitVec.toNat_ofNat]
    omega
  · rw [State.jump_mem, State.setMem_mem, hcell, Memory.read_write_ne _ _ ha]
  · rw [State.jump_pc_toNat, setSp_reg_operand, apply_ite BitVec.toNat, hcell]

/-- Settles O29: pc becomes the byte at the stack pointer, which is then stepped. -/
theorem retJumpsToTheTop : Obligations.RetJumpsToTheTop := by
  intro s hs
  refine ⟨_, execRet_eq s hs, State.jump_pc_toNat .., ?_, fun i hi => s.setSp_reg_ne _ hi, fun _ => rfl,
    ⟨rfl, rfl, rfl, rfl⟩, rfl⟩
  simp only [State.jump_sp, State.setSp_sp, toNat_add_one hs]

/-- Settles O20: one fault of PUSH, CALL, POP or RET for each end. -/
theorem stackEndsFault : Obligations.StackEndsFault :=
  fun s _ h => ⟨execPush_bottom s h, execCall_bottom s h, fun hs h7 => execPop_top s h (toNat_ne_seven h7) hs,
    execRet_top s, execPop_sp_top s, execCall_top s h⟩

end Sys2Proof.Machine
end

section
/-! Frames over all instructions: output (10_state.md R20), run state and record (R17, R18), pc (R15) and cell 255
(20_memory.md R36); and canonical memory is told by what it reads. -/
namespace Sys2Proof.Machine

/-! ### The output channel -/

/-- An execution leaves the output as it is, or is PRN and appends one value. -/
theorem exec_out_cases {i : Instr} {s t : State} (ht : exec i s = .next t) :
    t.out = s.out ∨ ∃ r v, i = .prn r ∧ t.out = s.out ++ [v] := by
  cases exec_cases ht with
  | prn r h => exact .inr ⟨r, _, rfl, rfl⟩
  | _ => exact .inl rfl

/-- A step never shortens the output. -/
theorem cycle_out_extends {o : Opcodes} {s t : State} (ht : cycle o s = .next t) : s.out <+: t.out := by
  have hsame : s.out <+: s.out := ⟨[], List.append_nil _⟩
  obtain ⟨-, rfl⟩ | ⟨-, ⟨e, -, rfl⟩ | ⟨i, -, hx⟩⟩ := cycle_cases ht
  · exact hsame
  · exact hsame
  · obtain hout | ⟨r, v, -, hout⟩ := exec_out_cases hx
    · exact hout ▸ hsame
    · exact ⟨[v], hout.symm⟩

/-- Settles O32, from what an execution can do to the output. -/
theorem onlyPrnExtendsTheOutput : Obligations.OnlyPrnExtendsTheOutput := by
  refine ⟨fun i s t ht hi => ?_, fun r s t ht => ?_, fun _ _ _ => cycle_out_extends⟩
  · obtain hout | ⟨r, -, hr, -⟩ := exec_out_cases ht
    · exact hout
    · exact absurd hr (hi r)
  · obtain hout | ⟨-, v, -, hout⟩ := exec_out_cases ht
    · exact .inl hout
    · exact .inr ⟨v, hout⟩

/-! ### Run state, record and pc -/

/-- Settles O33, from what an execution can do to the run state and the record. -/
theorem onlyHltAndFaultsWriteTheRunState : Obligations.OnlyHltAndFaultsWriteTheRunState := by
  intro i s t ht hfault
  obtain ⟨e, -, rfl⟩ | ⟨rfl, rfl⟩ | ⟨hi, hrun, hcause, hfpc, hinfo⟩ := exec_control_cases ht
  · exact absurd rfl (hfault e)
  · exact ⟨rfl, rfl, rfl, fun h => absurd rfl h, fun _ => rfl⟩
  · exact ⟨hcause, hfpc, hinfo, fun _ => hrun, fun h => absurd h hi⟩

/-- Settles O34, from what an execution can do to pc. -/
theorem pcMovesByTheInstructionLength : Obligations.PcMovesByTheInstructionLength := by
  intro i s t ht hcall hret
  obtain hstay | hmove | ⟨⟨r, hi⟩ | hi, -⟩ := exec_pc_cases ht
  · exact .inl hstay
  · exact .inr hmove
  · exact absurd hi (hcall r)
  · exact absurd hi hret

/-! ### Cell 255 -/

/-- The cell below the stack pointer is never the last one. -/
theorem toNat_lt_of_spBelow {sp k : Byte} (h : spBelow sp = .ok k) : k.toNat < 255 := by
  by_cases hs : sp = 0
  · cases (spBelow_zero hs).symm.trans h
  · obtain rfl := Except.ok.inj ((spBelow_ok hs).symm.trans h)
    have := sp.isLt
    rw [toNat_sub_one hs]
    omega

/-- Settles O35: a step writes at most the cell below the stack pointer. -/
theorem cellTwoFiftyFiveIsNeverWritten : Obligations.CellTwoFiftyFiveIsNeverWritten := by
  intro o s t ht
  obtain ⟨-, rfl⟩ | ⟨-, ⟨e, -, rfl⟩ | ⟨i, -, hx⟩⟩ := cycle_cases ht
  · rfl
  · rfl
  · exact exec_read_of_ne_spBelow hx fun k hk => (toNat_lt_of_spBelow hk).ne'

/-! ### Canonical memory -/

/-- The canonical form of a list is that of its first entry and of its rest. -/
theorem Memory.wf_cons {k : Nat} {w : Byte} {m : Memory} (h : Memory.wf ((k, w) :: m)) :
    k < 256 ∧ w ≠ 0 ∧ (∀ c ∈ m, k < c.1) ∧ m.wf := by
  obtain ⟨hsorted, hcells⟩ := h
  obtain ⟨hk, hm⟩ := List.pairwise_cons.mp hsorted
  obtain ⟨⟨hlt, hw⟩, hrest⟩ := List.forall_mem_cons.mp hcells
  exact ⟨hlt, hw, hk, hm, hrest⟩

/-- A listed first cell reads as its byte. -/
theorem Memory.read_cons_self (k : Nat) (w : Byte) (m : Memory) : Memory.read ((k, w) :: m) k = w := if_pos rfl

/-- Canonical memories that read alike begin at the same address: the lower of two would read 0 in the other. -/
theorem Memory.not_lt_of_read_eq {k j : Nat} {w x : Byte} {m n : Memory} (hm : Memory.wf ((k, w) :: m))
    (hn : Memory.wf ((j, x) :: n))
    (hread : ∀ a, a < 256 → Memory.read ((k, w) :: m) a = Memory.read ((j, x) :: n) a) : ¬k < j := by
  intro hlt
  obtain ⟨hk, hw, -⟩ := Memory.wf_cons hm
  obtain ⟨-, -, hj, -⟩ := Memory.wf_cons hn
  have hzero : Memory.read ((j, x) :: n) k = 0 := Memory.read_eq_zero_of_lt _ _ <|
    List.forall_mem_cons.mpr ⟨hlt, fun c hc => hlt.trans (hj c hc)⟩
  exact hw ((Memory.read_cons_self k w m).symm.trans ((hread k hk).trans hzero))

/-- Memory that reads 0 everywhere lists nothing. -/
theorem Memory.eq_nil_of_read_eq_zero {m : Memory} (hm : m.wf) (hread : ∀ a, a < 256 → m.read a = 0) : m = [] := by
  cases m with
  | nil => rfl
  | cons c m =>
    obtain ⟨hk, hw, -⟩ := Memory.wf_cons hm
    exact absurd ((Memory.read_cons_self ..).symm.trans (hread _ hk)) hw

/-- Settles O38, by induction on the two lists: the first entries agree, and the rests read alike. -/
theorem canonicalMemoriesThatReadAlikeAreEqual : Obligations.CanonicalMemoriesThatReadAlikeAreEqual := by
  intro m
  induction m with
  | nil => exact fun n _ hn hread => (Memory.eq_nil_of_read_eq_zero hn fun a ha => (hread a ha).symm).symm
  | cons c m ih =>
    intro n hm hn hread
    cases n with
    | nil => exact Memory.eq_nil_of_read_eq_zero hm hread
    | cons d n =>
      obtain ⟨k, w⟩ := c
      obtain ⟨j, x⟩ := d
      obtain rfl : k = j := le_antisymm
        (not_lt.mp (Memory.not_lt_of_read_eq hn hm fun a ha => (hread a ha).symm))
        (not_lt.mp (Memory.not_lt_of_read_eq hm hn hread))
      obtain ⟨hk, -, hkm, hm⟩ := Memory.wf_cons hm
      obtain ⟨-, -, hkn, hn⟩ := Memory.wf_cons hn
      have hwx : w = x := by simpa only [Memory.read_cons_self] using hread k hk
      have hrest : ∀ a, a < 256 → Memory.read m a = Memory.read n a := by
        intro a ha
        rcases eq_or_ne a k with rfl | hak
        · rw [Memory.read_eq_zero_of_lt m a hkm, Memory.read_eq_zero_of_lt n a hkn]
        · simpa only [Memory.read_cons, if_neg hak] using hread a ha
      rw [hwx, ih n hm hn hrest]

end Sys2Proof.Machine
end

section
/-! Laws of two instructions: a store is seen by the next fetch (20_memory.md R43), POP undoes PUSH (43_stack.md R93)
and RET undoes CALL (44_call_ret.md R97). -/
namespace Sys2Proof.Machine

/-- A byte other than 0 is another number. -/
theorem toNat_ne_zero {b : Byte} (h : b ≠ 0) : b.toNat ≠ 0 := fun e => h (BitVec.eq_of_toNat_eq e)

/-- A byte that is another number than 0 is not 0. -/
theorem ne_zero_of_toNat_ne {b : Byte} (h : b.toNat ≠ 0) : b ≠ 0 := fun e => h (congrArg BitVec.toNat e)

/-- A byte below 255 is not the top of the stack's space. -/
theorem ne_top_of_toNat_lt {b : Byte} (h : b.toNat < 255) : b ≠ 255 := fun e => h.ne (congrArg BitVec.toNat e)

/-- Two steps in a row keep the run state and the record where each does. -/
theorem SameControl.trans {s t u : State} (hst : SameControl s t) (htu : SameControl t u) : SameControl s u := by
  obtain ⟨hrun, hcause, hfpc, hinfo⟩ := hst
  obtain ⟨hrun', hcause', hfpc', hinfo'⟩ := htu
  exact ⟨hrun'.trans hrun, hcause'.trans hcause, hfpc'.trans hfpc, hinfo'.trans hinfo⟩

/-- A one-operand instruction stands at pc where its two bytes do. -/
theorem standsAt_one_operand {o : Opcodes} {s : State} {p : Op} {r : Byte} (hp : operandCount p = 1)
    (hpc : s.pc.toNat ≤ 254) (h0 : s.mem.read s.pc.toNat = o.byteOf p) (h1 : s.mem.read (s.pc.toNat + 1) = r) :
    StandsAt o (assemble p r 0) s := by
  rw [StandsAt, encodeWith_assemble, hp]
  refine ⟨show s.pc.toNat + 2 ≤ 256 by omega, fun k b hk => ?_⟩
  match k, hk with
  | 0, hk => exact h0.trans (Option.some.inj hk)
  | 1, hk => exact h1.trans (Option.some.inj hk)

/-- pc after a two-byte instruction that lies inside memory. -/
theorem pc_add_two_toNat {pc : PcWord} (h : pc.toNat ≤ 254) : (pc + 2).toNat = pc.toNat + 2 := by
  rw [BitVec.toNat_add]
  exact Nat.mod_eq_of_lt (show pc.toNat + 2 < 512 by omega)

/-- The first byte of the instruction at pc, as fetched. -/
theorem fetchByte_zero {s : State} (hpc : s.pc.toNat < 256) : fetchByte s 0 = some (s.mem.read s.pc.toNat) := by
  rw [fetchByte_eq, if_pos (by omega), Nat.add_zero]

/-- Where the byte at pc is HLT's, the step halts. -/
theorem cycle_hlt {o : Opcodes} (ho : o.Distinct) {s : State} (hr : s.run = .running) (hpc : s.pc.toNat < 256)
    (h0 : s.mem.read s.pc.toNat = o.hlt) : cycle o s = .next (s.setRun .halted) := by
  have hstands : StandsAt o .hlt s := by
    refine ⟨hpc, fun k b hk => ?_⟩
    match k, hk with
    | 0, hk => exact h0.trans (Option.some.inj hk)
  exact (hstands.cycle ho hr).trans (execHlt_eq s)

/-- Settles O39: the cell PUSH stores into is the one pc moves to. -/
theorem aStoreIsSeenByTheNextFetch : Obligations.AStoreIsSeenByTheNextFetch := by
  intro o ho s r h h7 hr hwf hstands hsp
  have hspne : s.sp ≠ 0 := ne_zero_of_toNat_ne (by omega)
  have hlt := s.sp.isLt
  obtain ⟨t, ht, -, hcell, -, -, hpc, ⟨hrun, -⟩, -⟩ := pushStoresBelowTheOldTop r h s hspne hwf
  have hpc : t.pc.toNat = s.sp.toNat - 1 := by
    rw [hpc, pc_add_two_toNat (by omega)]
    omega
  rw [if_neg h7, ← hpc] at hcell
  refine ⟨t, (hstands.cycle ho hr).trans ht, ?_, fun hhlt => ?_⟩
  · rw [fetchByte_zero (by omega), hcell]
  · exact cycle_hlt ho (hrun.trans hr) (by omega) (hcell.trans hhlt)

/-- Settles O40: POP stands untouched after PUSH, finds its stack pointer, and steps it back. -/
theorem popAfterPushRestores : Obligations.PopAfterPushRestores := by
  intro o ho s r q h hq hr hwf hpc hsp hcell2 hcell3 hb0 hb1 hb2 hb3
  have hlt := s.sp.isLt
  have hpos := toNat_ne_zero hsp
  have hq7 : q ≠ 7 := by
    rintro rfl
    exact absurd hq (by decide)
  have hpush : StandsAt o (.push r) s := standsAt_one_operand (p := .push) rfl (by omega) hb0 hb1
  obtain ⟨t, ht, htsp, htcell, htmem, htreg, htpc, htc, htout⟩ := pushStoresBelowTheOldTop r h s hsp hwf
  rw [← sub_one_eq_ofNat hsp] at htcell
  have htpc : t.pc.toNat = s.pc.toNat + 2 := by rw [htpc, pc_add_two_toNat (by omega)]
  have hpop : StandsAt o (.pop q) t := by
    refine standsAt_one_operand (p := .pop) rfl (by omega) ?_ ?_
    · rw [htpc, htmem _ hcell2.symm, hb2]
      rfl
    · rw [htpc, htmem _ hcell3.symm, hb3]
  obtain ⟨u, hu, huq, husp, hureg, hupc, humem, huc, huout⟩ :=
    popLoadsTheTop.1 q (by omega) t hq7 (ne_top_of_toNat_lt (by omega))
  have husp : u.sp = s.sp := BitVec.eq_of_toNat_eq (by omega)
  refine ⟨t, u, (hpush.cycle ho hr).trans ht, (hpop.cycle ho (htc.1.trans hr)).trans hu, ?_, husp, ?_, ?_,
    fun i hi => ?_, fun a ha => (humem a).trans (htmem a ha), htc.trans huc, huout.trans htout⟩
  · rw [huq, htsp, htcell]
  · rw [humem, htcell]
  · rw [hupc, pc_add_two_toNat (by omega), htpc]
  · rcases eq_or_ne i 7 with rfl | hi7
    · exact husp
    · exact (hureg i hi7 hi).trans (htreg i hi7)

/-- Settles O41: CALL leaves pc + 2 below the old top, where RET finds it. -/
theorem retAfterCallReturns : Obligations.RetAfterCallReturns := by
  intro o ho s r h hr hwf hpc hsp hstands
  have hr7 : r ≠ 7 := by
    rintro rfl
    exact absurd h (by decide)
  have hlt := s.sp.isLt
  refine ⟨?_, fun v hvr hvret hvsp hvcell => ?_⟩
  · obtain ⟨t, ht, htsp, htcell, -, htpc, -⟩ :=
      callPushesTheReturnAddressAndJumps r (by omega) s hsp (by omega) hwf
    rw [if_neg hr7] at htpc
    exact ⟨t, (hstands.cycle ho hr).trans ht, htpc, htsp, htcell⟩
  · have hpos := toNat_ne_zero hsp
    have hvtop : v.sp ≠ 255 := ne_top_of_toNat_lt (by omega)
    obtain ⟨w, hw, hwpc, hwsp, -⟩ := retJumpsToTheTop v hvtop
    rw [hvsp, hvcell] at hwpc
    exact ⟨w, (hvret.cycle ho hvr).trans hw, hwpc, BitVec.eq_of_toNat_eq (by omega)⟩

end Sys2Proof.Machine
end

section
/-! The host (70_reset_and_hazards.md): reset, start and load, the launch state, and the program image text
(30_encoding.md R58). -/
namespace Sys2Proof.Machine

/-! ### Reset, start and load -/

/-- Settles O1: the reset state's own fields, register by register. -/
theorem resetLeavesTheSpecifiedValues : Obligations.ResetLeavesTheSpecifiedValues :=
  ⟨by decide, rfl, rfl, Memory.read_nil, rfl, rfl, rfl, rfl, rfl, fun _ => rfl⟩

/-- Settles O42: start is one write of the run state, in Idle only. -/
theorem startAndLoadActOnlyInIdle : Obligations.StartAndLoadActOnlyInIdle := by
  refine ⟨fun s h => ⟨hostStart_not_idle h, fun a v => hostLoad_not_idle a v h⟩, fun s h => ?_⟩
  have hstart : hostApply .start s = s.setRun .running := hostStart_idle h
  rw [hstart]
  exact ⟨rfl, rfl, rfl, rfl, rfl, rfl, rfl, rfl⟩

/-! ### Loading an image -/

/-- Bytes placed from cell `a` upward are written one by one while they fit. -/
theorem placeBytes_cons {a : Nat} (m : Memory) (b : Byte) (bs : List Byte) (ha : a < Config.memSize) :
    placeBytes m a (b :: bs) = placeBytes (m.write a b) (a + 1) bs := by
  rw [placeBytes, if_pos ha]

/-- Loading an idle core places the bytes and changes nothing else. -/
theorem loadFrom_eq_placeBytes {s : State} (hs : s.run = .idle) {a : Nat} {bs : List Byte} (h : a + bs.length ≤ 256) :
    loadFrom a bs s = s.setMem (placeBytes s.mem a bs) := by
  induction bs generalizing a s with
  | nil => rfl
  | cons b bs ih =>
    rw [List.length_cons] at h
    have ha : a < Config.memSize := show a < 256 by omega
    have haddr : (BitVec.ofNat 8 a).toNat = a := Nat.mod_eq_of_lt ha
    have hs' : (s.setMem (s.mem.write a b)).run = .idle := hs
    rw [loadFrom, hostLoad_idle _ b hs, haddr, ih hs' (by omega), placeBytes_cons _ _ _ ha]
    rfl

/-- What placed bytes read as: cell `a + k` holds byte `k`, and every other cell is as it was. -/
theorem placeBytes_read {m : Memory} (hm : m.wf) {a : Nat} {bs : List Byte} (h : a + bs.length ≤ 256) (c : Nat) :
    (placeBytes m a bs).read c = if a ≤ c then bs.getD (c - a) (m.read c) else m.read c := by
  induction bs generalizing a m with
  | nil => simp [placeBytes]
  | cons b bs ih =>
    rw [List.length_cons] at h
    have ha : a < Config.memSize := show a < 256 by omega
    rw [placeBytes_cons _ _ _ ha, ih (Memory.write_wf _ _ _ hm ha) (by omega), Memory.read_write _ _ _ _ hm.1]
    rcases lt_trichotomy c a with hc | rfl | hc
    · rw [if_neg (by omega), if_neg (by omega), if_neg (by omega)]
    · simp
    · obtain ⟨d, rfl⟩ := Nat.exists_eq_add_of_lt hc
      have hd : a + d + 1 - a = d + 1 := by omega
      have hd' : a + d + 1 - (a + 1) = d := by omega
      rw [if_pos (by omega), if_neg (by omega), if_pos (by omega), hd, hd', List.getD_cons_succ]

/-- An image of 1 to 256 bytes boots to the reset state with its bytes from cell 0 upward, running. -/
theorem boot_eq {image : List Byte} (h1 : 1 ≤ image.length) (h256 : image.length ≤ 256) :
    boot image = .ok ((State.reset.setMem (placeBytes [] 0 image)).setRun .running) := by
  have hne : image ≠ [] := List.ne_nil_of_length_pos h1
  have hload : loadImage image State.reset = .ok (State.reset.setMem (placeBytes [] 0 image)) := by
    rw [loadImage, if_neg hne, if_neg (show ¬Config.memSize < image.length from h256.not_gt),
      loadFrom_eq_placeBytes rfl (by omega)]
    rfl
  rw [boot, hload]
  rfl

/-- An image that is too long starts nothing. -/
theorem boot_too_long {image : List Byte} (h : 256 < image.length) : boot image = .error .imageTooLong := by
  have hne : image ≠ [] := List.ne_nil_of_length_pos (by omega)
  have hload : loadImage image State.reset = .error .imageTooLong := by 
    rw [loadImage, if_neg hne, if_pos (show Config.memSize < image.length from h)]
  rw [boot, hload]

/-- Settles O43: the launch state is the reset state but for memory and the run state. -/
theorem bootGivesTheLaunchState : Obligations.BootGivesTheLaunchState := by
  refine ⟨rfl, fun image => boot_too_long, fun image h1 h256 => ⟨_, boot_eq h1 h256, rfl, rfl,
    resetLeavesTheSpecifiedValues.1, fun k => ?_, rfl, rfl, ?_⟩⟩
  · have hread := placeBytes_read State.reset_mem_wf (a := 0) (bs := image) (by omega) k
    rwa [if_pos (Nat.zero_le k)] at hread
  · exact resetMeetsTheInvariant.of_sameRecord nofun nofun ⟨rfl, rfl, rfl⟩
      (placeBytes_wf _ _ _ State.reset_mem_wf) (Nat.zero_le _)

/-! ### Comment and blank lines -/

/-- A blank line and a comment line hold no byte. -/
theorem parseLine_comment {l : List Char} (h : l.dropWhile isBlank = [] ∨ ∃ cs, l.dropWhile isBlank = '#' :: cs) :
    parseLine l = .ok none := by
  unfold parseLine
  obtain h | ⟨cs, h⟩ := h
  · rw [h]
  · rw [h]
    rfl

/-- Lines that hold no byte give the empty image. -/
theorem parseLines_eq_nil {ls : List (List Char)} (h : ∀ l ∈ ls, parseLine l = .ok none) : parseLines ls = .ok [] := by
  induction ls with
  | nil => rfl
  | cons l ls ih =>
    obtain ⟨hl, hls⟩ := List.forall_mem_cons.mp h
    rw [parseLines, hl, ih hls]
    rfl

/-- Settles O44: the lines give the empty image, which starts nothing. -/
theorem commentOnlyImageIsEmptyProgram : Obligations.CommentOnlyImageIsEmptyProgram := by
  intro text h
  have himage : parseImage text = .ok [] := parseLines_eq_nil fun l hl => parseLine_comment (h l hl)
  rw [bootText, himage]
  rfl

end Sys2Proof.Machine
end

section
/-! The assembler spelling (30_encoding.md R59) is read back: the words of a spelled line, a decimal number, a register
operand, and then each instruction. -/
namespace Sys2Proof.Machine

/-! ### Words and tokens -/

/-- What stands between the tokens of a line. -/
def isSeparator (c : Char) : Bool := isBlank c || c == ','

/-- A word: one or more characters, none of which separates tokens. -/
def IsWord (w : List Char) : Prop := w ≠ [] ∧ ∀ c ∈ w, isSeparator c = false

/-- A separator is skipped. -/
theorem tokensOf_separator {c : Char} (hc : isSeparator c = true) (cs : List Char) :
    tokensOf (c :: cs) = tokensOf cs := by
  rw [tokensOf.eq_def]
  exact if_pos hc

/-- A character that begins a word in front of another of the same word joins its token. -/
theorem tokensOf_join {c d : Char} {cs t : List Char} {ts : List (List Char)} (hc : isSeparator c = false)
    (hd : isSeparator d = false) (h : tokensOf (d :: cs) = t :: ts) : tokensOf (c :: d :: cs) = (c :: t) :: ts := by
  rw [isSeparator] at hc hd
  rw [tokensOf.eq_def]
  simp [hc, hd, h]

/-- A character that ends a word is a token of its own, before those of the rest of the line. -/
theorem tokensOf_last {c : Char} {cs : List Char} (hc : isSeparator c = false)
    (hcs : ∀ d ∈ cs.head?, isSeparator d = true) : tokensOf (c :: cs) = [c] :: tokensOf cs := by
  rw [isSeparator] at hc
  rw [tokensOf.eq_def]
  cases cs with
  | nil => simp [hc]
  | cons d cs =>
    have hd : isSeparator d = true := hcs d rfl
    rw [isSeparator] at hd
    cases h : tokensOf (d :: cs) <;> simp [hc, hd, h]

/-- A word at the end of the line or before a separator is the line's first token. -/
theorem tokensOf_word_append {w rest : List Char} (hw : IsWord w) (hrest : ∀ d ∈ rest.head?, isSeparator d = true) :
    tokensOf (w ++ rest) = w :: tokensOf rest := by
  obtain ⟨hne, hw⟩ := hw
  induction w with
  | nil => exact absurd rfl hne
  | cons c w ih =>
    obtain ⟨hc, hw⟩ := List.forall_mem_cons.mp hw
    cases w with
    | nil => exact tokensOf_last hc hrest
    | cons d w => exact tokensOf_join hc (hw d List.mem_cons_self) (ih (List.cons_ne_nil d w) hw)

/-- A word alone. -/
theorem tokensOf_word {w : List Char} (hw : IsWord w) : tokensOf w = [w] := by
  simpa [tokensOf] using tokensOf_word_append (rest := []) hw nofun

/-- A word, a space and the rest of the line. -/
theorem tokensOf_word_space {w : List Char} (hw : IsWord w) (rest : List Char) :
    tokensOf (w ++ ' ' :: rest) = w :: tokensOf rest := by
  have hspace : isSeparator ' ' = true := rfl
  have hrest : ∀ d ∈ (' ' :: rest).head?, isSeparator d = true := by simpa using hspace
  rw [tokensOf_word_append hw hrest, tokensOf_separator hspace]

/-! ### Numbers -/

/-- A decimal digit's value is its distance from `0`. -/
theorem digitValue_of_isDigit {base : Nat} {c : Char} (hc : c.isDigit = true) (hb : c.toNat - 48 < base) :
    digitValue base c = some (c.toNat - 48) := by
  have hrange : '0' ≤ c ∧ c ≤ '9' := Char.isDigit_iff_toNat.mp hc
  simp only [digitValue, if_pos hrange, if_pos hb]

/-- One or more decimal digits have the value the library gives them. -/
theorem digitsValue_ten {cs : List Char} (hne : cs ≠ []) (hcs : ∀ c ∈ cs, c.isDigit = true) (acc : Nat) :
    digitsValue 10 cs acc = some (Nat.ofDigitChars 10 cs acc) := by
  induction cs generalizing acc with
  | nil => exact absurd rfl hne
  | cons c cs ih =>
    obtain ⟨hc, hcs⟩ := List.forall_mem_cons.mp hcs
    have hle : c.toNat ≤ 57 := (Char.isDigit_iff_toNat.mp hc).2
    have hlt : c.toNat - 48 < 10 := by omega
    have hd := digitValue_of_isDigit hc hlt
    cases cs with
    | nil =>
      rw [digitsValue, hd]
      rfl
    | cons d cs =>
      rw [digitsValue, hd]
      · exact ih (List.cons_ne_nil d cs) hcs _
      · exact List.cons_ne_nil d cs

/-- A token of digits has neither `0x` nor `0b` in front: it is read in base ten. -/
theorem readImm_digits {cs : List Char} (hcs : ∀ c ∈ cs, c.isDigit = true) {n : Nat}
    (h : digitsValue 10 cs 0 = some n) (hn : n ≤ 255) : readImm cs = some (BitVec.ofNat 8 n) := by
  unfold readImm
  split
  · exact absurd (hcs 'x' (by simp)) (by decide)
  · exact absurd (hcs 'b' (by simp)) (by decide)
  · simp [h, hn]

theorem isDigit_of_mem_spellByte {b : Byte} : ∀ c ∈ spellByte b, c.isDigit = true :=
  fun _ hc => Nat.isDigit_of_mem_toDigits (by decide) (by decide) hc

/-- A byte spelled in decimal is read back. -/
theorem readImm_spellByte (b : Byte) : readImm (spellByte b) = some b := by
  have hval := digitsValue_ten Nat.toDigits_ne_nil (isDigit_of_mem_spellByte (b := b)) 0
  rw [Nat.ofDigitChars_toDigits (by decide) (by decide)] at hval
  rw [readImm_digits isDigit_of_mem_spellByte hval (Nat.le_of_lt_succ b.isLt), BitVec.ofNat_toNat, BitVec.setWidth_eq]

/-- A register operand is read back. -/
theorem readReg_spellReg {b : Byte} (hb : b.toNat < 8) : readReg (spellReg b) = some b := by
  have hdigit : digitValue 8 b.toNat.digitChar = some b.toNat := by
    have hval := Nat.toNat_digitChar_sub_48_of_lt_ten (n := b.toNat) (by omega)
    have hchar : b.toNat.digitChar.isDigit = true := by
      rw [Nat.isDigit_digitChar]
      exact decide_eq_true (by omega)
    rw [digitValue_of_isDigit hchar (by omega), hval]
  rw [spellReg, spellByte, Nat.toDigits_of_lt_base (by omega)]
  show (digitValue 8 b.toNat.digitChar).map (BitVec.ofNat 8) = some b
  rw [hdigit, Option.map_some, BitVec.ofNat_toNat, BitVec.setWidth_eq]

/-! ### Lines -/

theorem isSeparator_of_isDigit {c : Char} (hc : c.isDigit = true) : isSeparator c = false := by
  have hsep : c ≠ ' ' ∧ c ≠ '\t' ∧ c ≠ '\r' ∧ c ≠ ',' := by
    refine ⟨?_, ?_, ?_, ?_⟩ <;> (rintro rfl; exact absurd hc (by decide))
  simpa [isSeparator, isBlank, and_assoc] using hsep

theorem isWord_spellByte (b : Byte) : IsWord (spellByte b) :=
  ⟨Nat.toDigits_ne_nil, fun c hc => isSeparator_of_isDigit (isDigit_of_mem_spellByte c hc)⟩

theorem isWord_spellReg (b : Byte) : IsWord (spellReg b) :=
  ⟨List.cons_ne_nil 'R' _, List.forall_mem_cons.mpr ⟨rfl, (isWord_spellByte b).2⟩⟩

theorem isWord_mnemonicOf (p : Op) : IsWord (mnemonicOf p) := by
  cases p <;> simp [IsWord, mnemonicOf, isSeparator, isBlank]

/-- The mnemonics tell the operations apart. -/
theorem find_mnemonicOf (p : Op) : Op.all.find? (fun q => mnemonicOf q == mnemonicOf p) = some p := by
  cases p <;> decide

/-- A mnemonic alone is the instruction of an operation without operands. -/
theorem readAssembly_no_operand {p : Op} (hp : operandCount p = 0) :
    readAssembly (mnemonicOf p) = some (assemble p 0 0) := by
  simp only [readAssembly, tokensOf_word (isWord_mnemonicOf p), find_mnemonicOf]
  cases p with
  | hlt | ret => rfl
  | _ => cases hp

/-- A mnemonic and a register are the instruction of an operation with one operand. -/
theorem readAssembly_one_operand {p : Op} (hp : operandCount p = 1) {r : Byte} (hr : r.toNat < 8) :
    readAssembly (mnemonicOf p ++ ' ' :: spellReg r) = some (assemble p r 0) := by
  simp only [readAssembly, tokensOf_word_space (isWord_mnemonicOf p), tokensOf_word (isWord_spellReg r),
    find_mnemonicOf]
  cases p with
  | prn | push | pop | call => simp [readReg_spellReg hr, assemble]
  | _ => cases hp

/-- The tokens of a line with two operands. -/
theorem tokensOf_two_operands (p : Op) {x y : List Char} (hx : IsWord x) (hy : IsWord y) :
    tokensOf (mnemonicOf p ++ ' ' :: x ++ ' ' :: y) = [mnemonicOf p, x, y] := by
  rw [List.append_assoc, List.cons_append, tokensOf_word_space (isWord_mnemonicOf p), tokensOf_word_space hx,
    tokensOf_word hy]

/-- LDI takes a register and a number. -/
theorem readAssembly_ldi {r : Byte} (hr : r.toNat < 8) (v : Byte) :
    readAssembly (spell (.ldi r v)) = some (.ldi r v) := by
  simp only [readAssembly, spell, tokensOf_two_operands .ldi (isWord_spellReg r) (isWord_spellByte v), find_mnemonicOf]
  simp [readReg_spellReg hr, readImm_spellByte]

/-- ADD and MUL take two registers. -/
theorem readAssembly_two_registers {p : Op} (hp : p = .add ∨ p = .mul) {a b : Byte} (ha : a.toNat < 8)
    (hb : b.toNat < 8) :
    readAssembly (mnemonicOf p ++ ' ' :: spellReg a ++ ' ' :: spellReg b) = some (assemble p a b) := by
  simp only [readAssembly, tokensOf_two_operands p (isWord_spellReg a) (isWord_spellReg b), find_mnemonicOf]
  obtain rfl | rfl := hp <;> simp [readReg_spellReg ha, readReg_spellReg hb, assemble]

/-- Settles O45: each instruction's spelling is one of the four forms of line. -/
theorem assemblyReadsBackTheSpelling : Obligations.AssemblyReadsBackTheSpelling := by
  intro i hwf
  have hreg (b : Byte) (hb : b ∈ i.regOperands) : b.toNat < 8 := of_decide_eq_true (List.all_eq_true.mp hwf b hb)
  cases i with
  | hlt => exact readAssembly_no_operand (p := .hlt) rfl
  | ret => exact readAssembly_no_operand (p := .ret) rfl
  | prn r => exact readAssembly_one_operand (p := .prn) rfl (hreg r (List.mem_singleton_self r))
  | push r => exact readAssembly_one_operand (p := .push) rfl (hreg r (List.mem_singleton_self r))
  | pop r => exact readAssembly_one_operand (p := .pop) rfl (hreg r (List.mem_singleton_self r))
  | call r => exact readAssembly_one_operand (p := .call) rfl (hreg r (List.mem_singleton_self r))
  | ldi r v => exact readAssembly_ldi (hreg r (List.mem_singleton_self r)) v
  | add a b =>
    exact readAssembly_two_registers (.inl rfl) (hreg a List.mem_cons_self)
      (hreg b (List.mem_cons_of_mem a (List.mem_singleton_self b)))
  | mul a b =>
    exact readAssembly_two_registers (.inr rfl) (hreg a List.mem_cons_self)
      (hreg b (List.mem_cons_of_mem a (List.mem_singleton_self b)))

end Sys2Proof.Machine
end
